-- ==== Sys2Proof/Word.lean ====
section
/-! DEFINITION. The widths of the block's values (spec/00_scope.md rule R5, R10): every value is an unsigned
integer of a stated width, so each is a bit vector of exactly that width. -/

namespace Sys2Proof

/-- `CMDW`: one command word (R5, R80). -/
abbrev CmdWord := BitVec 16

/-- `CHARW`: a character code, or a value given to or sent by the repacker (R5, R86). -/
abbrev Byte := BitVec 8

/-- `SYMW`: a Bech32 symbol, 0 to 31 (R5, R11). -/
abbrev Sym := BitVec 5

/-- `CHKW`: the checksum accumulator, and the values the polymod step takes (R5, R130). -/
abbrev Word30 := BitVec 30

/-- `ACCW`: the repacker's bit accumulator (R5, R24). -/
abbrev AccWord := BitVec 15

/-- `VALW`: the VALUE field of a response (R5, R35). -/
abbrev Value := BitVec 32

end Sys2Proof
end

