-- ==== Sys2Proof/Syntax.lean ====
section
/-! DEFINITION. The 17 commands of the set B32C-1 (spec/30_encoding.md rule R84; spec/opcode_table.json), one
constructor per row, with the operands as spec/30_encoding.md rule R93 writes them. -/

namespace Sys2Proof

/-- One command.  A symbol operand has its 5 bits (format S, R83), a character or value operand its 8 bits
(format C, R86).  RPCFG has the two widths themselves (R93 "takes the two widths as numbers 1 to 8"); that they
lie in 1 to 8 is WellFormed's check, and the encoding carries each less one (R88). -/
inductive Instr where
  /-- Soft reset (R163). -/
  | srst
  /-- Empty the string buffer (R161). -/
  | sbclr
  /-- Append one character (R162). -/
  | sbput (c : Byte)
  /-- Configure the repacker and start a sequence (R113). -/
  | rpcfg (fromBits toBits : BitVec 4) (pad : Bool)
  /-- Push one value to the repacker (R114). -/
  | rppush (c : Byte)
  /-- Finish the repacker's sequence (R115). -/
  | rpend
  /-- Start a checksum (R134). -/
  | pminit
  /-- Feed one symbol to the checksum (R135). -/
  | pmstep (s : Sym)
  /-- Start a checksum with the hrp in the buffer (R136). -/
  | pmhrp
  /-- Read the checksum accumulator (R137). -/
  | pmrd
  /-- Test the checksum accumulator against 1 (R138). -/
  | pmvfy
  /-- Symbol to character (R153). -/
  | cxenc (s : Sym)
  /-- Character to symbol (R154). -/
  | cxdec (c : Byte)
  /-- Send the hrp and the separator, start the checksum (R172). -/
  | enchrp
  /-- Send one data symbol (R173). -/
  | encsym (s : Sym)
  /-- Send the six checksum characters (R174). -/
  | encfin
  /-- Decode the string in the buffer (R180). -/
  | decode
  deriving DecidableEq, Repr

end Sys2Proof
end

