-- ==== Sys2Proof/WellFormed.lean ====
section
/-! DEFINITION. Which terms of `Instr` are commands of the block.  The operand widths leave one check: the two
widths of RPCFG (spec/30_encoding.md rules R88, R93; spec/93_implementation_defined.md I12 "refuse in the
assembler"). -/

namespace Sys2Proof

/-- `RPMIN` to `RPMAX`: the legal widths of the repacker, 1 to 8 (spec/00_scope.md R5, spec/40_repacker.md R110). -/
def legalWidth (w : BitVec 4) : Bool := 1 ≤ w.toNat && w.toNat ≤ 8

/-- The command can be written as a word: RPCFG's two widths are each 1 to 8; every other operand fits by its
type. -/
def WellFormed : Instr → Bool
  | .rpcfg f t _ => legalWidth f && legalWidth t
  | .srst => true
  | .sbclr => true
  | .sbput _ => true
  | .rppush _ => true
  | .rpend => true
  | .pminit => true
  | .pmstep _ => true
  | .pmhrp => true
  | .pmrd => true
  | .pmvfy => true
  | .cxenc _ => true
  | .cxdec _ => true
  | .enchrp => true
  | .encsym _ => true
  | .encfin => true
  | .decode => true

end Sys2Proof
end

