-- ==== Sys2Proof/Decode.lean ====
section
/-! DEFINITION. The command words (spec/30_encoding.md rules R80 to R91, R93): the decoder, total on every 16-bit
word and rejecting by name; the encoder, written from the same table; the assembler of R93. -/

namespace Sys2Proof

/-- The four formats of R81; they differ only in how the operand byte is read. -/
inductive Format where
  /-- no operand: the operand byte must be 0 -/
  | N
  /-- symbol: bits 7 to 5 must be 0 -/
  | S
  /-- character or value: all eight bits -/
  | C
  /-- repacker configuration: bit 7 must be 0, then p, f, t -/
  | R
  deriving DecidableEq, Repr

/-- Why a word is illegal (R89).  The four names are the model's, and no state or response shows them: DESIGN CHOICE,
safe (log entry 10). -/
inductive Illegal where
  /-- `cmd[15:8]` is none of the 17 opcodes of R84 -/
  | unassignedOpcode
  /-- a format-N opcode with a nonzero operand byte (R82) -/
  | operandNotZero
  /-- a format-S opcode with `cmd[7:5] ≠ 0`: a value of 32 or more is no symbol (R83) -/
  | notASymbol
  /-- RPCFG with `cmd[7] = 1` (R88) -/
  | configBitSeven
  deriving DecidableEq, Repr

/-! ## Fields of a word -/

/-- `op = cmd[15:8]` (R80). -/
def opOf (w : CmdWord) : BitVec 8 := w.extractLsb' 8 8

/-- `arg = cmd[7:0]` (R80). -/
def argOf (w : CmdWord) : BitVec 8 := w.extractLsb' 0 8

/-- The word of an opcode and an operand byte, `(op << 8) | arg` (R93). -/
def wordOf (op arg : BitVec 8) : CmdWord := (op.setWidth 16 <<< 8) ||| arg.setWidth 16

/-! ## Decoding -/

/-- Format N (R82). -/
def formatN (i : Instr) (arg : BitVec 8) : Except Illegal Instr :=
  if arg = 0 then .ok i else .error .operandNotZero

/-- Format S (R83): the symbol is `cmd[4:0]` and `cmd[7:5]` must be 0. -/
def formatS (f : Sym → Instr) (arg : BitVec 8) : Except Illegal Instr :=
  if arg.extractLsb' 5 3 = 0 then .ok (f (arg.extractLsb' 0 5)) else .error .notASymbol

/-- A repacker width from its 3-bit field, which holds the width less one (R88). -/
def widthOfField (f : BitVec 3) : BitVec 4 := f.setWidth 4 + 1

/-- Format R (R88): `cmd[7]` must be 0, `p = cmd[6]`, `f = cmd[5:3]`, `t = cmd[2:0]`. -/
def formatR (arg : BitVec 8) : Except Illegal Instr :=
  if arg.getLsbD 7 then .error .configBitSeven
  else .ok (.rpcfg (widthOfField (arg.extractLsb' 3 3)) (widthOfField (arg.extractLsb' 0 3)) (arg.getLsbD 6))

/-- The opcode map (R84), read on an opcode and an operand byte. -/
def decodeFields (op arg : BitVec 8) : Except Illegal Instr :=
  match op.toNat with
  | 0x01 => formatN .srst arg
  | 0x10 => formatN .sbclr arg
  | 0x11 => .ok (.sbput arg)
  | 0x20 => formatR arg
  | 0x21 => .ok (.rppush arg)
  | 0x22 => formatN .rpend arg
  | 0x30 => formatN .pminit arg
  | 0x31 => formatS .pmstep arg
  | 0x32 => formatN .pmhrp arg
  | 0x33 => formatN .pmrd arg
  | 0x34 => formatN .pmvfy arg
  | 0x40 => formatS .cxenc arg
  | 0x41 => .ok (.cxdec arg)
  | 0x50 => formatN .enchrp arg
  | 0x51 => formatS .encsym arg
  | 0x52 => formatN .encfin arg
  | 0x60 => formatN .decode arg
  | _ => .error .unassignedOpcode

/-- Decoding is total and has no state (R85): every word is one command with its operand, or illegal. -/
def decode (w : CmdWord) : Except Illegal Instr := decodeFields (opOf w) (argOf w)

/-! ## Encoding -/

/-- The mnemonic of R84. -/
def mnemonicOf : Instr → String
  | .srst => "SRST"
  | .sbclr => "SBCLR"
  | .sbput _ => "SBPUT"
  | .rpcfg _ _ _ => "RPCFG"
  | .rppush _ => "RPPUSH"
  | .rpend => "RPEND"
  | .pminit => "PMINIT"
  | .pmstep _ => "PMSTEP"
  | .pmhrp => "PMHRP"
  | .pmrd => "PMRD"
  | .pmvfy => "PMVFY"
  | .cxenc _ => "CXENC"
  | .cxdec _ => "CXDEC"
  | .enchrp => "ENCHRP"
  | .encsym _ => "ENCSYM"
  | .encfin => "ENCFIN"
  | .decode => "DECODE"

/-- The opcode of R84. -/
def opcodeOf : Instr → BitVec 8
  | .srst => 0x01
  | .sbclr => 0x10
  | .sbput _ => 0x11
  | .rpcfg _ _ _ => 0x20
  | .rppush _ => 0x21
  | .rpend => 0x22
  | .pminit => 0x30
  | .pmstep _ => 0x31
  | .pmhrp => 0x32
  | .pmrd => 0x33
  | .pmvfy => 0x34
  | .cxenc _ => 0x40
  | .cxdec _ => 0x41
  | .enchrp => 0x50
  | .encsym _ => 0x51
  | .encfin => 0x52
  | .decode => 0x60

/-- The format of R84. -/
def formatOf : Instr → Format
  | .srst => .N
  | .sbclr => .N
  | .sbput _ => .C
  | .rpcfg _ _ _ => .R
  | .rppush _ => .C
  | .rpend => .N
  | .pminit => .N
  | .pmstep _ => .S
  | .pmhrp => .N
  | .pmrd => .N
  | .pmvfy => .N
  | .cxenc _ => .S
  | .cxdec _ => .C
  | .enchrp => .N
  | .encsym _ => .S
  | .encfin => .N
  | .decode => .N

/-- A repacker width as its 3-bit field, the width less one (R88, R93). -/
def fieldOfWidth (w : BitVec 4) : BitVec 3 := (w - 1).setWidth 3

/-- The operand byte of format R (R81): `0 p fff ttt`. -/
def configByte (f t : BitVec 4) (pad : Bool) : BitVec 8 :=
  0#1 ++ BitVec.ofBool pad ++ fieldOfWidth f ++ fieldOfWidth t

/-- The operand byte, laid out by the command's format (R81). -/
def operandByteOf : Instr → BitVec 8
  | .srst => 0
  | .sbclr => 0
  | .sbput c => c
  | .rpcfg f t pad => configByte f t pad
  | .rppush c => c
  | .rpend => 0
  | .pminit => 0
  | .pmstep s => 0#3 ++ s
  | .pmhrp => 0
  | .pmrd => 0
  | .pmvfy => 0
  | .cxenc s => 0#3 ++ s
  | .cxdec c => c
  | .enchrp => 0
  | .encsym s => 0#3 ++ s
  | .encfin => 0
  | .decode => 0

/-- The one word of a well-formed command (R80, R84). -/
def encode (i : Instr) : CmdWord := wordOf (opcodeOf i) (operandByteOf i)

/-! ## The assembler's operands (R93; spec/93_implementation_defined.md I12, I13) -/

/-- An operand as it is written: a number, decimal or hex, or a character in single quotes. -/
inductive AsmOperand where
  | number (n : Nat)
  | quoted (c : Char)
  deriving DecidableEq, Repr

/-- A character or value operand: a number 0 to 255, or a quoted character standing for its US-ASCII code. -/
def asmByte : AsmOperand → Option Byte
  | .number n => if n < 256 then some (BitVec.ofNat 8 n) else none
  | .quoted c => if c.toNat < 128 then some (BitVec.ofNat 8 c.toNat) else none

/-- A symbol operand: a number 0 to 31. -/
def asmSym : AsmOperand → Option Sym
  | .number n => if n < 32 then some (BitVec.ofNat 5 n) else none
  | .quoted _ => none

/-- A width operand: a number 1 to 8. -/
def asmWidth : AsmOperand → Option (BitVec 4)
  | .number n => if 1 ≤ n ∧ n ≤ 8 then some (BitVec.ofNat 4 n) else none
  | .quoted _ => none

/-- The pad operand: 0 or 1. -/
def asmPad : AsmOperand → Option Bool
  | .number n => if n < 2 then some (n == 1) else none
  | .quoted _ => none

/-- A mnemonic and its operands as a command (R93).  An operand out of range, a wrong number of operands or an
unknown mnemonic is refused; no machine behaviour exists for it (I12, I13).  DESIGN CHOICE, safe (log entry 11). -/
def assemble (mnemonic : String) (operands : List AsmOperand) : Option Instr :=
  match operands with
  | [] =>
    if mnemonic = "SRST" then some .srst
    else if mnemonic = "SBCLR" then some .sbclr
    else if mnemonic = "RPEND" then some .rpend
    else if mnemonic = "PMINIT" then some .pminit
    else if mnemonic = "PMHRP" then some .pmhrp
    else if mnemonic = "PMRD" then some .pmrd
    else if mnemonic = "PMVFY" then some .pmvfy
    else if mnemonic = "ENCHRP" then some .enchrp
    else if mnemonic = "ENCFIN" then some .encfin
    else if mnemonic = "DECODE" then some .decode
    else none
  | [x] =>
    if mnemonic = "SBPUT" then (asmByte x).map .sbput
    else if mnemonic = "RPPUSH" then (asmByte x).map .rppush
    else if mnemonic = "CXDEC" then (asmByte x).map .cxdec
    else if mnemonic = "PMSTEP" then (asmSym x).map .pmstep
    else if mnemonic = "CXENC" then (asmSym x).map .cxenc
    else if mnemonic = "ENCSYM" then (asmSym x).map .encsym
    else none
  | [from_, to_, pad] =>
    if mnemonic = "RPCFG" then do
      let f ← asmWidth from_
      let t ← asmWidth to_
      let p ← asmPad pad
      return .rpcfg f t p
    else none
  | _ => none

/-! ## The opcode table's numbering of bits -/

/-- The command word that the opcode table's bits `w` of a row of `nbits` bits stand for: the table numbers a row's
bits as the word's own, so a row of 16 bits is the word; bits above `nbits` are 0.  DEDUCED, safe (log entry 8). -/
def tableWord (nbits w : Nat) : CmdWord := BitVec.ofNat 16 (w % 2 ^ nbits)

/-- The command the decoder reads from the table's bits. -/
def decodeTableWord (nbits w : Nat) : Option Instr := (decode (tableWord nbits w)).toOption

end Sys2Proof
end

