-- ==== Sys2Proof/Config.lean ====
section
/-! DEFINITION. What is fixed for the block, and its one free value. The spec fixes every parameter
(spec/00_scope.md rule R5; `PORT_BINDING` of spec/92_eei_decisions.md D27 enters no rule and is left out), so
the only open value is what a cell of the string buffer holds before anything is written to it
(spec/10_state.md rule R31, spec/93_implementation_defined.md I2). -/

namespace Sys2Proof.Config

/-- What cell `a` of the string buffer holds while no SBPUT has written it: unspecified (R31, R37; I2 "any
value").  A constant without a body, so no proof can see a value of it.
DESIGN CHOICE, safe (log entry 2). -/
opaque unwrittenCell : Nat → Byte

/-- `SBCAP`: cells of the string buffer (R5, R31). -/
def sbCap : Nat := 90

/-- The value of LEN that says "more than 90 characters were given" (R25). -/
def lenOver : Nat := 91

end Sys2Proof.Config
end

