-- ==== Sys2Proof/Machine/State.lean ====
section
/-! DEFINITION. The whole state of the block (spec/10_state.md rule R20), its ports (R34, R35, R9), and why a
command can stop. -/

namespace Sys2Proof.Machine

/-! ## The output side: beats and responses -/

/-- The tag of a beat (R34); tag 3 is reserved and never emitted, so there are three. -/
inductive Tag where
  | char
  | sym
  | rpv
  deriving DecidableEq, Repr

/-- One beat of the output stream OUT: `(tag, data)` (R34). -/
structure Beat where
  tag : Tag
  data : Byte
  deriving DecidableEq, Repr

/-- The ten status codes (spec/60_exceptions.md R200); 10 to 15 are reserved and never returned. -/
inductive Status where
  | ok
  | eCharset
  | eMixedCase
  | eSeparator
  | eLength
  | eChecksum
  | eWidth
  | ePadding
  | eOverflow
  | eIllegal
  deriving DecidableEq, Repr

/-- A response: STATUS and VALUE (R35). -/
structure Response where
  status : Status
  value : Value
  deriving DecidableEq, Repr

/-- One thing the block has given on its ports.  Beats and responses stand in one record so that "before the
command's response is given" (R34) can be read off it. -/
inductive Output where
  | beat (b : Beat)
  | response (r : Response)
  deriving DecidableEq, Repr

/-! ## The input side -/

/-- One thing the outside does to the block: it gives a command word (R9), or it asserts and releases the reset
input (spec/70_reset_and_hazards.md R230). -/
inductive Input where
  | command (w : CmdWord)
  | reset
  deriving DecidableEq, Repr

/-! ## The string buffer -/

/-- The cells of SB that have been written, as (index, character) pairs with indices strictly rising (R31, R60).
A cell that is not listed has not been written since power-on. -/
abbrev Memory := List Host.Cell

/-! ## The state -/

/-- Every register, flag and control field of R20, the string buffer, and the two ports. -/
structure State where
  /-- `CHK`, the checksum accumulator (R23). -/
  chk : Word30
  /-- `ACC`, the repacker's bit accumulator (R24). -/
  acc : AccWord
  /-- `BITS`, the count of valid bits in ACC (R24). -/
  bits : BitVec 4
  /-- `FROM`, the width of each value pushed in (R30). -/
  fromBits : BitVec 4
  /-- `TO`, the width of each value sent out (R30). -/
  toBits : BitVec 4
  /-- `PAD`: true is padding mode, false strict mode (R30). -/
  pad : Bool
  /-- `RPE`, "repacker width error" (R29). -/
  rpe : Bool
  /-- `LEN`, the characters given since the buffer was cleared; 91 says more than 90 (R25). -/
  len : BitVec 7
  /-- `NP`, "non-printable seen" (R27). -/
  np : Bool
  /-- `LOW`, "lowercase seen" (R28). -/
  low : Bool
  /-- `UPP`, "uppercase seen" (R28). -/
  upp : Bool
  /-- `SB`, the string buffer (R31). -/
  sb : Memory
  /-- The record of everything given on the output ports, oldest first: the beats of OUT (R34), which the spec has
  the model keep as the observation (R20), and the responses (R35).  No command reads it.  DESIGN CHOICE, safe (log
  entry 3). -/
  sent : List Output
  /-- What the outside does next, in the order it does it (R9, R71).  No command reads it.  DESIGN CHOICE (log
  entry 4). -/
  inputs : List Input
  deriving DecidableEq, Repr

/-- Why the machine stops with a fault.  No command does so in a state the spec gives the block (R20, R38, R208):
each of these names a computation the spec gives no meaning, in a state it says cannot be.  DESIGN CHOICE, safe (log
entry 5). -/
inductive Fault where
  /-- Raised by PMHRP, ENCHRP and DECODE when LEN is above 91 (LEN is 0 to 91, R20): they would read a cell of SB
  past 89, and there is none (R60).  Safe: the machine stops where the spec gives no meaning. -/
  | noSuchCell
  /-- Raised by RPPUSH when TO is 0 (TO is 1 to 8, R20): the loop of R114 would never end.  Safe. -/
  | zeroWidth
  /-- Raised by RPEND when BITS is above TO (BITS is below TO, R38): R115 would shift by a negative amount.
  Safe. -/
  | negativeShift
  deriving DecidableEq, Repr

/-- Why a command is refused. -/
inductive Refusal where
  /-- Raised by exec's arm of a command that has no meaning yet, by its mnemonic.  Safe.  No arm raises it. -/
  | notModelled (mnemonic : String)
  deriving DecidableEq, Repr

/-- The state right after reset (R37, R231).  No cell of SB has been written, nothing has been sent, and the outside
has not said what it does next. -/
def State.reset : State where
  chk := 1
  acc := 0
  bits := 0
  fromBits := 8
  toBits := 5
  pad := true
  rpe := false
  len := 0
  np := false
  low := false
  upp := false
  sb := []
  sent := []
  inputs := []

end Sys2Proof.Machine
end

