-- ==== Sys2Proof/Machine/Operands.lean ====
section
/-! DEFINITION. The operand forms (spec/30_encoding.md rules R82 to R88) and the widths at which a rule uses them.
Nothing is ever sign-extended (spec/00_scope.md R10). -/

namespace Sys2Proof.Machine

/-- `zext_30(s)`: a symbol as the polymod step takes it (R83, R135). -/
def zext30 (s : Sym) : Word30 := s.setWidth 30

/-- `zext_8(s)`: a symbol as the data of a SYM beat (R34). -/
def symByte (s : Sym) : Byte := s.setWidth 8

/-- `zext_32(v)` of a character code (R92). -/
def byteValue (c : Byte) : Value := c.setWidth 32

/-- `zext_32(v)` of a symbol (R92). -/
def symValue (s : Sym) : Value := s.setWidth 32

/-- `zext_32(v)` of a 30-bit word (R92). -/
def word30Value (c : Word30) : Value := c.setWidth 32

/-- LEN as the VALUE of a response (R92). -/
def lenValue (n : BitVec 7) : Value := n.setWidth 32

/-- A count as the VALUE of a response (R92). -/
def natValue (n : Nat) : Value := BitVec.ofNat 32 n

end Sys2Proof.Machine
end

