-- ==== Sys2Proof/Machine/Ops.lean ====
section
/-! DEFINITION. The named operations over the string buffer, the registers and the ports, which every meaning is
written with (spec/00_scope.md rule R10: MemRead, MemWrite, `NAME <- v`, emit, respond, raise). -/

namespace Sys2Proof.Machine

/-! ## The string buffer -/

/-- The character cell `a` has been given, if any. -/
def Memory.read : Memory → Nat → Option Byte
  | [], _ => none
  | (b, c) :: m, a => if a = b then some c else Memory.read m a

/-- Give cell `a` the character `c`, keeping the cells in rising order. -/
def Memory.write : Memory → Nat → Byte → Memory
  | [], a, c => [(a, c)]
  | (b, d) :: m, a, c =>
    if a < b then (a, c) :: (b, d) :: m
    else if a = b then (a, c) :: m
    else (b, d) :: Memory.write m a c

/-- Indices strictly rising, from `lo` up. -/
def Memory.rising : Nat → Memory → Bool
  | _, [] => true
  | lo, (a, _) :: m => decide (lo ≤ a) && Memory.rising (a + 1) m

/-- The one form a memory is kept in: indices strictly rising, and only cells 0 to 89 (R60). -/
def Memory.wf (m : Memory) : Bool :=
  Memory.rising 0 m && m.all (fun cell => decide (cell.1 < Config.sbCap))

/-- `MemRead(a, 1)` (R10): the content of cell `a`, which is unspecified while nothing has written it (R31). -/
def State.cell (s : State) (a : Nat) : Byte := (s.sb.read a).getD (Config.unwrittenCell a)

/-- `MemWrite(a, 1, c)` (R10). -/
def State.setCell (s : State) (a : Nat) (c : Byte) : State := { s with sb := s.sb.write a c }

/-- The characters `SB[0], ..., SB[n-1]` in reading order (R62). -/
def State.cells (s : State) (n : Nat) : List Byte := (List.range n).map s.cell

/-- The string the buffer holds (spec/43_buffer_system.md R160). -/
def State.string (s : State) : List Byte := s.cells (min s.len.toNat Config.sbCap)

/-! ## The registers -/

/-- `CHK <- c`. -/
def State.setChk (s : State) (c : Word30) : State := { s with chk := c }

/-- `ACC <- a; BITS <- n`. -/
def State.setAcc (s : State) (a : AccWord) (n : BitVec 4) : State := { s with acc := a, bits := n }

/-- `RPE <- e`. -/
def State.setRpe (s : State) (e : Bool) : State := { s with rpe := e }

/-- `FROM <- f; TO <- t; PAD <- p`, written together (R30). -/
def State.setConfig (s : State) (f t : BitVec 4) (p : Bool) : State :=
  { s with fromBits := f, toBits := t, pad := p }

/-- `LEN <- n`. -/
def State.setLen (s : State) (n : BitVec 7) : State := { s with len := n }

/-- `NP <- np; LOW <- low; UPP <- upp`. -/
def State.setFlags (s : State) (np low upp : Bool) : State := { s with np := np, low := low, upp := upp }

/-- `ACC <- 0; BITS <- 0; RPE <- 0`: the repacker starts afresh (R113, R115). -/
def State.clearRepacker (s : State) : State := (s.setAcc 0 0).setRpe false

/-- Every register and flag takes its reset value (R37); the cells of SB are not written (R32, R163). -/
def State.resetRegisters (s : State) : State :=
  ((((s.setChk State.reset.chk).setAcc State.reset.acc State.reset.bits).setRpe State.reset.rpe).setConfig
    State.reset.fromBits State.reset.toBits State.reset.pad).setLen State.reset.len |>.setFlags
    State.reset.np State.reset.low State.reset.upp

/-! ## The output ports -/

/-- The beat an output is, if it is one. -/
def Output.beat? : Output → Option Beat
  | .beat b => some b
  | .response _ => none

/-- The response an output is, if it is one. -/
def Output.response? : Output → Option Response
  | .beat _ => none
  | .response r => some r

/-- `OUT`: every beat emitted since reset, oldest first (R34). -/
def State.out (s : State) : List Beat := s.sent.filterMap Output.beat?

/-- Every response given since reset, oldest first (R35). -/
def State.responses (s : State) : List Response := s.sent.filterMap Output.response?

/-- `emit`, once for each beat, in order (R10, R34). -/
def State.emit (s : State) (bs : List Beat) : State := { s with sent := s.sent ++ bs.map Output.beat }

/-- The beats of one tag for a list of data bytes. -/
def beats (tag : Tag) (data : List Byte) : List Beat := data.map (Beat.mk tag)

/-- `respond(status, value)`: the command's one response, which ends it (R10, R35). -/
def respond (status : Status) (value : Value) (s : State) : Host.Outcome State Fault Refusal :=
  .next { s with sent := s.sent ++ [.response ⟨status, value⟩] }

/-- `raise E(info)`: what stands in place of taking an exception (R10; spec/60_exceptions.md R205).  It saves
nothing, changes no mode and goes nowhere: it is the command's response, and the next command runs as usual.
There is no return from it (R206). -/
def raise (status : Status) (info : Value) (s : State) : Host.Outcome State Fault Refusal := respond status info s

/-- What an illegal word does: no state change, no beat, `E_ILLEGAL` with VALUE 0 (spec/30_encoding.md R89;
spec/60_exceptions.md R209). -/
def illegalWord (s : State) : Host.Outcome State Fault Refusal := raise .eIllegal 0 s

/-- Run a command that reads the whole string `SB[0 .. LEN-1]`; there are 90 cells (R60). -/
def State.withCells (s : State) (k : List Byte → Host.Outcome State Fault Refusal) :
    Host.Outcome State Fault Refusal :=
  if s.len.toNat ≤ Config.sbCap then k (s.cells s.len.toNat) else .fault .noSuchCell

/-! ## The numbers on the ports -/

/-- The 4-bit code of a status (R200). -/
def statusCode : Status → BitVec 4
  | .ok => 0
  | .eCharset => 1
  | .eMixedCase => 2
  | .eSeparator => 3
  | .eLength => 4
  | .eChecksum => 5
  | .eWidth => 6
  | .ePadding => 7
  | .eOverflow => 8
  | .eIllegal => 9

/-- Every status, in the order of its code (R200). -/
def statuses : List Status :=
  [.ok, .eCharset, .eMixedCase, .eSeparator, .eLength, .eChecksum, .eWidth, .ePadding, .eOverflow, .eIllegal]

/-- The status of a 4-bit code; the reserved codes 10 to 15 are refused (spec/93_implementation_defined.md I5). -/
def statusOfCode (c : BitVec 4) : Option Status := statuses[c.toNat]?

/-- The seven errors of the function specification, in the order it lists them (R200; HS §7). -/
inductive HsError where
  | invalidCharacterSet
  | mixedCase
  | missingOrMisplacedSeparator
  | lengthExceeded
  | checksumMismatch
  | invalidInputWidth
  | invalidPadding
  deriving DecidableEq, Repr

/-- The status that reports an error of the function specification (R200). -/
def statusOfError : HsError → Status
  | .invalidCharacterSet => .eCharset
  | .mixedCase => .eMixedCase
  | .missingOrMisplacedSeparator => .eSeparator
  | .lengthExceeded => .eLength
  | .checksumMismatch => .eChecksum
  | .invalidInputWidth => .eWidth
  | .invalidPadding => .ePadding

/-- The error a status reports, for the seven that have one (R200). -/
def errorOfStatus : Status → Option HsError
  | .ok => none
  | .eCharset => some .invalidCharacterSet
  | .eMixedCase => some .mixedCase
  | .eSeparator => some .missingOrMisplacedSeparator
  | .eLength => some .lengthExceeded
  | .eChecksum => some .checksumMismatch
  | .eWidth => some .invalidInputWidth
  | .ePadding => some .invalidPadding
  | .eOverflow => none
  | .eIllegal => none

/-- The 2-bit code of a tag (R34). -/
def tagCode : Tag → BitVec 2
  | .char => 0
  | .sym => 1
  | .rpv => 2

/-- The 10 bits of a beat, the tag above the data (R34). -/
def beatBits (b : Beat) : BitVec 10 := tagCode b.tag ++ b.data

/-- The beat of 10 bits; the reserved tag 3 is refused (spec/93_implementation_defined.md I6). -/
def beatOfBits (v : BitVec 10) : Option Beat :=
  match (v.extractLsb' 8 2).toNat with
  | 0 => some ⟨.char, v.extractLsb' 0 8⟩
  | 1 => some ⟨.sym, v.extractLsb' 0 8⟩
  | 2 => some ⟨.rpv, v.extractLsb' 0 8⟩
  | _ => none

/-! ## The input port -/

/-- The next thing the outside does, taken off the port: each is consumed once, in order (R22, R71). -/
def State.takeInput (s : State) : Option (Input × State) :=
  match s.inputs with
  | [] => none
  | i :: rest => some (i, { s with inputs := rest })

/-- The reset input asserted and released (R230, R231): the registers take their reset values, the cells of SB are
unspecified again, no response is given, and what was sent stays sent (R34). -/
def State.resetInput (s : State) : State := { s.resetRegisters with sb := State.reset.sb }

/-- The state `s` with a command word put first on the input port. -/
def State.offer (s : State) (w : CmdWord) : State := { s with inputs := .command w :: s.inputs }

end Sys2Proof.Machine
end

