-- ==== Sys2Proof/Machine/Flags.lean ====
section
/-! DEFINITION. The four flags (spec/10_state.md rules R26 to R29): what each command that sets one tests.  There are
no arithmetic condition codes (R26). -/

namespace Sys2Proof.Machine

/-- `PRLO` to `PRHI`: a printable code, 33 to 126 (spec/00_scope.md R5, R27). -/
def printable (c : Byte) : Bool := 33 ≤ c.toNat && c.toNat ≤ 126

/-- `A` to `Z` (R28). -/
def isUpper (c : Byte) : Bool := 0x41 ≤ c.toNat && c.toNat ≤ 0x5A

/-- `a` to `z` (R28). -/
def isLower (c : Byte) : Bool := 0x61 ≤ c.toNat && c.toNat ≤ 0x7A

/-- What SBPUT does to NP, LOW and UPP for the character `c`: each can be set and none is cleared (R27, R28). -/
def State.noteChar (s : State) (c : Byte) : State :=
  s.setFlags (s.np || !printable c) (s.low || isLower c) (s.upp || isUpper c)

/-- The loaded string is mixed-case exactly when `LOW = 1` and `UPP = 1` (R28). -/
def State.mixedCase (s : State) : Bool := s.low && s.upp

/-- What sets RPE: a pushed value `c >= 2^FROM` (R29). -/
def tooWide (w : BitVec 4) (c : Byte) : Bool := decide (2 ^ w.toNat ≤ c.toNat)

end Sys2Proof.Machine
end

