-- ==== Sys2Proof/Machine/Buffer.lean ====
section
/-! DEFINITION. The string buffer and system commands (spec/43_buffer_system.md): SBCLR, SBPUT, SRST. -/

namespace Sys2Proof.Machine

/-- SBCLR (R161).  The cells are not erased. -/
def execSbclr (s : State) : Host.Outcome State Fault Refusal :=
  respond .ok 0 ((s.setLen 0).setFlags false false false)

/-- SBPUT (R162): the flags see every character, stored or not; the 91st and later are dropped. -/
def execSbput (c : Byte) (s : State) : Host.Outcome State Fault Refusal :=
  let t := s.noteChar c
  if t.len.toNat < Config.sbCap then
    let u := (t.setCell t.len.toNat c).setLen (t.len + 1)
    respond .ok (lenValue u.len) u
  else
    raise .eOverflow (natValue Config.lenOver) (t.setLen (BitVec.ofNat 7 Config.lenOver))

/-- SRST (R163): every register and flag takes its reset value. -/
def execSrst (s : State) : Host.Outcome State Fault Refusal := respond .ok 0 s.resetRegisters

end Sys2Proof.Machine
end

