-- ==== Sys2Proof/Machine/Base32.lean ====
section
/-! DEFINITION. The base32 character encoder and decoder (spec/42_base32.md): the alphabet and the functions CHARENC,
CHARDEC, LOWER and UPPER (R150 to R152, R156), and the commands CXENC and CXDEC. -/

namespace Sys2Proof.Machine

/-! ## The functions -/

/-- The alphabet ALPHA, by symbol (spec/00_scope.md R7, R150): `qpzry9x8gf2tvdw0s3jn54khce6mua7l`; a constant, not
state (R8).  The codes are US-ASCII's: PRESUMED (log entry 7). -/
def alpha : List Byte :=
  [0x71, 0x70, 0x7A, 0x72, 0x79, 0x39, 0x78, 0x38, 0x67, 0x66, 0x32, 0x74, 0x76, 0x64, 0x77, 0x30,
   0x73, 0x33, 0x6A, 0x6E, 0x35, 0x34, 0x6B, 0x68, 0x63, 0x65, 0x36, 0x6D, 0x75, 0x61, 0x37, 0x6C]

/-- `CHARENC(s)` (R151).  The table has an entry for each of the 32 symbols. -/
def charEnc (s : Sym) : Byte := alpha.getD s.toNat 0

/-- `CHARDEC(c)` (R156): the index of the character, if it is in the alphabet. -/
def charDec (c : Byte) : Option Sym := (alpha.idxOf? c).map (BitVec.ofNat 5)

/-- `LOWER(c)` (R152). -/
def lower (c : Byte) : Byte := if isUpper c then c + 0x20 else c

/-- `UPPER(c)` (R152). -/
def upper (c : Byte) : Byte := if isLower c then c - 0x20 else c

/-! ## The commands -/

/-- CXENC (R153). -/
def execCxenc (x : Sym) (s : State) : Host.Outcome State Fault Refusal := respond .ok (byteValue (charEnc x)) s

/-- CXDEC (R154): the lookup is on the lower-cased character. -/
def execCxdec (c : Byte) (s : State) : Host.Outcome State Fault Refusal :=
  match charDec (lower c) with
  | none => raise .eCharset 0 s
  | some i => respond .ok (symValue i) s

end Sys2Proof.Machine
end

