-- ==== Sys2Proof/Machine/Polymod.lean ====
section
/-! DEFINITION. The polymod checksum generator (spec/41_polymod.md): the functions POLYSTEP, POLYMOD, EXPAND and
VERIFYF (R130 to R133) and the commands PMINIT, PMSTEP, PMHRP, PMRD, PMVFY. -/

namespace Sys2Proof.Machine

/-! ## The functions -/

/-- The generator table GEN (spec/00_scope.md R6); a constant, not state (R8). -/
def gen : List Word30 := [0x3b6a57b2, 0x26508e6d, 0x1ea119fa, 0x3d4233dd, 0x2a1462b3]

/-- `POLYSTEP(c, v)` (R130): the low 25 bits move up 5, the value is XORed in, and bit i of the old top five bits
XORs in `GEN[i]`.  The mask before the shift is the reading C1 fixes; the pairing of bits and constants is
GK1, from outside the source: PRESUMED (log entry 6). -/
def polystep (c v : Word30) : Word30 :=
  [0, 1, 2, 3, 4].foldl (fun r i => if c.getLsbD (25 + i) then r ^^^ gen.getD i 0 else r)
    (((c &&& 0x1ffffff) <<< 5) ^^^ v)

/-- Feed values to an accumulator, in order (R131, R140). -/
def polyfeed (c : Word30) (values : List Word30) : Word30 := values.foldl polystep c

/-- `POLYMOD(values)` (R131): from 1. -/
def polymod (values : List Word30) : Word30 := polyfeed 1 values

/-- `EXPAND(hrp)` (R132, R66): the high parts, one 0, the low parts. -/
def expand (hrp : List Byte) : List Word30 :=
  hrp.map (fun (h : Byte) => (h >>> 5).setWidth 30) ++ [0] ++ hrp.map (fun (h : Byte) => (h &&& 31).setWidth 30)

/-- `VERIFYF(hrp, dwc)` (R133). -/
def verifyF (hrp : List Byte) (dwc : List Sym) : Bool := polymod (expand hrp ++ dwc.map zext30) == 1

/-! ## The commands -/

/-- PMINIT (R134). -/
def execPminit (s : State) : Host.Outcome State Fault Refusal := respond .ok 0 (s.setChk 1)

/-- PMSTEP (R135). -/
def execPmstep (x : Sym) (s : State) : Host.Outcome State Fault Refusal :=
  respond .ok 0 (s.setChk (polystep s.chk (zext30 x)))

/-- PMHRP (R136): refused when the buffer has lost characters, else `CHK <- POLYMOD(EXPAND(SB[0..LEN)))`. -/
def execPmhrp (s : State) : Host.Outcome State Fault Refusal :=
  if s.len.toNat = Config.lenOver then raise .eOverflow 0 s
  else s.withCells fun str => respond .ok (lenValue s.len) (s.setChk (polymod (expand str)))

/-- PMRD (R137). -/
def execPmrd (s : State) : Host.Outcome State Fault Refusal := respond .ok (word30Value s.chk) s

/-- PMVFY (R138): a false verdict is a value, not an error. -/
def execPmvfy (s : State) : Host.Outcome State Fault Refusal := respond .ok (if s.chk = 1 then 1 else 0) s

end Sys2Proof.Machine
end

