-- ==== Sys2Proof/Machine/Encoder.lean ====
section
/-! DEFINITION. The encoder (spec/44_encode.md): the functions ENCODE and CKSYMS (R170, R171) and the commands
ENCHRP, ENCSYM, ENCFIN. -/

namespace Sys2Proof.Machine

/-! ## The functions -/

/-- `SEP`: the separator character `1` (spec/00_scope.md R5). -/
def sep : Byte := 0x31

/-- The six symbols of a 30-bit checksum, most significant first (spec/20_memory.md R64, R171). -/
def sixSyms (m : Word30) : List Sym := [0, 1, 2, 3, 4, 5].map fun i => (m >>> (5 * (5 - i))).setWidth 5

/-- The checksum m of R171. -/
def checksum (hrp : List Byte) (data : List Sym) : Word30 :=
  polymod (expand hrp ++ data.map zext30 ++ List.replicate 6 0) ^^^ 1

/-- `CKSYMS(hrp, data)` (R171). -/
def ckSyms (hrp : List Byte) (data : List Sym) : List Sym := sixSyms (checksum hrp data)

/-- `ENCODE(hrp, data)` (R170). -/
def encodeF (hrp : List Byte) (data : List Sym) : List Byte :=
  hrp ++ [sep] ++ (data ++ ckSyms hrp data).map charEnc

/-! ## The commands -/

/-- ENCHRP (R172): PMHRP's state change, and the hrp as stored and the separator on OUT. -/
def execEnchrp (s : State) : Host.Outcome State Fault Refusal :=
  if s.len.toNat = Config.lenOver then raise .eOverflow 0 s
  else s.withCells fun str =>
    respond .ok (lenValue s.len) ((s.setChk (polymod (expand str))).emit (beats .char (str ++ [sep])))

/-- ENCSYM (R173). -/
def execEncsym (x : Sym) (s : State) : Host.Outcome State Fault Refusal :=
  respond .ok (byteValue (charEnc x))
    ((s.setChk (polystep s.chk (zext30 x))).emit (beats .char [charEnc x]))

/-- ENCFIN (R174): CHK keeps the polymod after six zero steps; m, which differs in bit 0, is sent. -/
def execEncfin (s : State) : Host.Outcome State Fault Refusal :=
  let c := polyfeed s.chk (List.replicate 6 0)
  let m := c ^^^ 1
  respond .ok (word30Value m) ((s.setChk c).emit (beats .char ((sixSyms m).map charEnc)))

end Sys2Proof.Machine
end

