-- ==== Sys2Proof/Machine/Decoder.lean ====
section
/-! DEFINITION. The decoder (spec/45_decode.md): the function DECODEF (R186) and the command DECODE (R180 to R185). -/

namespace Sys2Proof.Machine

/-! ## The functions -/

/-- The loop that finds the separator (R180 step 4): `pos` ends as the greatest index, counted from `i`, whose
character is `1`. -/
def lastSepFrom (i : Nat) (pos : Option Nat) : List Byte → Option Nat
  | [] => pos
  | c :: cs => lastSepFrom (i + 1) (if c = sep then some i else pos) cs

/-- The position of the last `1` of a string, if it has one (R182). -/
def lastSep (str : List Byte) : Option Nat := lastSepFrom 0 none str

/-- `MAXLEN`: the greatest length decode accepts (spec/00_scope.md R5). -/
def maxLen : Nat := 90

/-- `CKLEN`: the checksum symbols of a string (spec/00_scope.md R5). -/
def ckLen : Nat := 6

/-- `DECODEF(s)`, for a string of any length (R186). -/
def decodeF (str : List Byte) : Except HsError (List Byte × List Sym) :=
  if str.any (fun c => !printable c) then .error .invalidCharacterSet
  else if str.any isUpper && str.any isLower then .error .mixedCase
  else if maxLen < str.length then .error .lengthExceeded
  else
    let t := str.map lower
    match lastSep t with
    | none => .error .missingOrMisplacedSeparator
    | some pos =>
      if pos < 1 then .error .missingOrMisplacedSeparator
      else if str.length < pos + 1 + ckLen then .error .lengthExceeded
      else if (t.drop (pos + 1)).any (fun c => (charDec c).isNone) then .error .invalidCharacterSet
      else
        let hrp := t.take pos
        let dwc := (t.drop (pos + 1)).filterMap charDec
        if verifyF hrp dwc then .ok (hrp, dwc.take (dwc.length - ckLen)) else .error .checksumMismatch

/-! ## The command -/

/-- VALUE of a successful DECODE: `(D << 8) | H` (R180, R185). -/
def decodeValue (h d : Nat) : Value := (natValue d <<< 8) ||| natValue h

/-- DECODE (R180): the eight steps, in order, over the buffer; the first failure ends it. -/
def execDecode (s : State) : Host.Outcome State Fault Refusal :=
  if s.np then raise .eCharset 0 s
  else if s.mixedCase then raise .eMixedCase 0 s
  else if s.len.toNat = Config.lenOver then raise .eLength 0 s
  else s.withCells fun str =>
    match lastSep str with
    | none => raise .eSeparator 0 s
    | some pos =>
      if pos < 1 then raise .eSeparator 0 s
      else if str.length < pos + 1 + ckLen then raise .eLength 0 s
      else if ((str.drop (pos + 1)).map lower).any (fun c => (charDec c).isNone) then raise .eCharset 0 s
      else
        let hrp := (str.take pos).map lower
        let dwc := ((str.drop (pos + 1)).map lower).filterMap charDec
        let c := polymod (expand hrp ++ dwc.map zext30)
        let t := s.setChk c
        if c ≠ 1 then raise .eChecksum 0 t
        else
          let d := str.length - pos - (1 + ckLen)
          respond .ok (decodeValue pos d)
            (t.emit (beats .char hrp ++ beats .sym ((dwc.take d).map symByte)))

end Sys2Proof.Machine
end

