-- ==== Sys2Proof/Machine/Repacker.lean ====
section
/-! DEFINITION. The bit repacker (spec/40_repacker.md): the function REPACK on whole sequences (R111) and the
commands RPCFG, RPPUSH, RPEND that stream it.  Shifts are on unbounded non-negative integers and every result is
narrowed explicitly (spec/00_scope.md R10). -/

namespace Sys2Proof.Machine

/-! ## The steps both are made of -/

/-- `((acc << from) | v) & mask(W)` (R111, R114). -/
def shiftIn (width acc fromW v : Nat) : Nat := ((acc <<< fromW) ||| v) % 2 ^ width

/-- `(acc >> bits) & mask(to)`: the oldest `to` of the `bits + to` valid bits (R111, R114). -/
def topBits (acc bits toW : Nat) : Nat := (acc >>> bits) % 2 ^ toW

/-- The loop `while bits >= to: bits = bits - to; output (acc >> bits) & mask(to)` (R111, R114): the outputs in
order and the bits left.  `fuel` bounds the passes; with `to >= 1` there are at most `bits` of them. -/
def slices (acc toW : Nat) : (fuel bits : Nat) → List Nat × Nat
  | 0, bits => ([], bits)
  | fuel + 1, bits =>
    if toW ≤ bits then
      let r := slices acc toW fuel (bits - toW)
      (topBits acc (bits - toW) toW :: r.1, r.2)
    else ([], bits)

/-- `(acc << (to - bits)) & mask(to)`: the leftover bits, left-aligned and zero-padded (R111, R115). -/
def leftAligned (acc bits toW : Nat) : Nat := (acc <<< (toW - bits)) % 2 ^ toW

/-! ## The function -/

/-- The part of R111 that runs over the data, from a given accumulator, bit count and output. -/
def repackLoop (width fromW toW : Nat) :
    (data : List Nat) → (acc bits : Nat) → (ret : List Nat) → Except HsError (Nat × Nat × List Nat)
  | [], acc, bits, ret => .ok (acc, bits, ret)
  | v :: vs, acc, bits, ret =>
    if 2 ^ fromW ≤ v then .error .invalidInputWidth
    else
      let acc' := shiftIn width acc fromW v
      let r := slices acc' toW (bits + fromW) (bits + fromW)
      repackLoop width fromW toW vs acc' r.2 (ret ++ r.1)

/-- REPACK with an accumulator of `width` bits (R111 leaves it open from `from + to - 1` up). -/
def repackWith (width : Nat) (data : List Nat) (fromW toW : Nat) (pad : Bool) : Except HsError (List Nat) :=
  match repackLoop width fromW toW data 0 0 [] with
  | .error e => .error e
  | .ok (acc, bits, ret) =>
    if pad then
      if 0 < bits then .ok (ret ++ [leftAligned acc bits toW]) else .ok ret
    else if fromW ≤ bits then .error .invalidPadding
    else if leftAligned acc bits toW ≠ 0 then .error .invalidPadding
    else .ok ret

/-- `ACCW`: the block's accumulator is 15 bits wide (spec/00_scope.md R5, R24). -/
def accW : Nat := 15

/-- REPACK (R111), with the block's accumulator width. -/
def repack (data : List Nat) (fromW toW : Nat) (pad : Bool) : Except HsError (List Nat) :=
  repackWith accW data fromW toW pad

/-! ## The commands -/

/-- RPCFG (R113). -/
def execRpcfg (f t : BitVec 4) (p : Bool) (s : State) : Host.Outcome State Fault Refusal :=
  respond .ok 0 (s.setConfig f t p).clearRepacker

/-- RPPUSH (R114).  With TO at 0, which R20 excludes, the loop would not end: that is the fault. -/
def execRppush (c : Byte) (s : State) : Host.Outcome State Fault Refusal :=
  if s.rpe then raise .eWidth 0 s
  else if tooWide s.fromBits c then raise .eWidth 0 (s.setRpe true)
  else if s.toBits = 0 then .fault .zeroWidth
  else
    let acc := shiftIn accW s.acc.toNat s.fromBits.toNat c.toNat
    let bits := s.bits.toNat + s.fromBits.toNat
    let r := slices acc s.toBits.toNat bits bits
    respond .ok (natValue r.1.length)
      ((s.setAcc (BitVec.ofNat 15 acc) (BitVec.ofNat 4 r.2)).emit (beats .rpv (r.1.map (BitVec.ofNat 8))))

/-- RPEND (R115).  With BITS above TO, which R38 excludes, the shift would be negative: that is the fault. -/
def execRpend (s : State) : Host.Outcome State Fault Refusal :=
  let t := s.clearRepacker
  if s.rpe then raise .eWidth 0 t
  else if s.toBits.toNat < s.bits.toNat then .fault .negativeShift
  else
    let last := leftAligned s.acc.toNat s.bits.toNat s.toBits.toNat
    if s.pad then
      if 0 < s.bits.toNat then respond .ok 1 (t.emit (beats .rpv [BitVec.ofNat 8 last]))
      else respond .ok 0 t
    else if s.fromBits.toNat ≤ s.bits.toNat then raise .ePadding 0 t
    else if last ≠ 0 then raise .ePadding 0 t
    else respond .ok 0 t

end Sys2Proof.Machine
end

