-- ==== Sys2Proof/Machine/Dispatch.lean ====
section
/-! DEFINITION. One meaning per command of spec/30_encoding.md rule R84. -/

namespace Sys2Proof.Machine

def exec (i : Instr) (s : State) : Host.Outcome State Fault Refusal :=
  match i with
  | .srst => Sys2Proof.Machine.execSrst s
  | .sbclr => Sys2Proof.Machine.execSbclr s
  | .sbput c => Sys2Proof.Machine.execSbput c s
  | .rpcfg f t p => Sys2Proof.Machine.execRpcfg f t p s
  | .rppush c => Sys2Proof.Machine.execRppush c s
  | .rpend => Sys2Proof.Machine.execRpend s
  | .pminit => Sys2Proof.Machine.execPminit s
  | .pmstep x => Sys2Proof.Machine.execPmstep x s
  | .pmhrp => Sys2Proof.Machine.execPmhrp s
  | .pmrd => Sys2Proof.Machine.execPmrd s
  | .pmvfy => Sys2Proof.Machine.execPmvfy s
  | .cxenc x => Sys2Proof.Machine.execCxenc x s
  | .cxdec c => Sys2Proof.Machine.execCxdec c s
  | .enchrp => Sys2Proof.Machine.execEnchrp s
  | .encsym x => Sys2Proof.Machine.execEncsym x s
  | .encfin => Sys2Proof.Machine.execEncfin s
  | .decode => Sys2Proof.Machine.execDecode s

end Sys2Proof.Machine
end

