-- ==== Sys2Proof/Machine/Step.lean ====
section
/-! DEFINITION. One step of the block: it takes the next thing the outside does off the input port and does it whole
(spec/00_scope.md rule R9). -/

namespace Sys2Proof.Machine

/-- One step.  A command word is decoded and runs; an illegal word is answered (R89); the reset input resets (R230);
with nothing on the port the block waits, and nothing changes (R9, R230).  Every beat is taken at once (R241): DESIGN
CHOICE, unsafe for claims of liveness only (log entry 9). -/
def step (s : State) : Host.Outcome State Fault Refusal :=
  match s.takeInput with
  | none => .next s
  | some (.reset, t) => .next t.resetInput
  | some (.command w, t) =>
    match Sys2Proof.decode w with
    | .ok i => exec i t
    | .error _ => illegalWord t

/-- `s` with the opcode table's word put first on the input port, so that the very next step runs it.  Programs come
from outside: DEDUCED (log entry 1). -/
def State.withFetchWord (s : State) (nbits w : Nat) : State := s.offer (Sys2Proof.tableWord nbits w)

end Sys2Proof.Machine
end

