-- ==== Sys2Proof/Machine/Transactions.lean ====
section
/-! DEFINITION. Sequences of commands: program order (spec/20_memory.md R71), the pseudo-instructions of
spec/30_encoding.md R94, and how the result of each of the four operations is read (R95, R96). -/

namespace Sys2Proof.Machine

/-- Run commands one after another, each on the state the one before it left (R71), stopping at the first that
stops. -/
def execAll : List Instr → State → Host.Outcome State Fault Refusal
  | [], s => .next s
  | i :: is, s =>
    match exec i s with
    | .next t => execAll is t
    | .fault r => .fault r
    | .refused r => .refused r

/-! ## The pseudo-instructions (R94) -/

/-- `SBSTR "str"`. -/
def sbstr (str : List Byte) : List Instr := .sbclr :: str.map .sbput

/-- `POLYMOD [v0, ..., vn-1]`. -/
def polymodSeq (vs : List Sym) : List Instr := .pminit :: vs.map .pmstep ++ [.pmrd]

/-- `REPACK from, to, pad, [v0, ..., vn-1]`. -/
def repackSeq (f t : BitVec 4) (pad : Bool) (vs : List Byte) : List Instr :=
  .rpcfg f t pad :: vs.map .rppush ++ [.rpend]

/-- `ENCODE "hrp", [s0, ..., sn-1]`. -/
def encodeSeq (hrp : List Byte) (data : List Sym) : List Instr :=
  sbstr hrp ++ .enchrp :: data.map .encsym ++ [.encfin]

/-- `VERIFY "hrp", [s0, ..., sn-1]`. -/
def verifySeq (hrp : List Byte) (dwc : List Sym) : List Instr :=
  sbstr hrp ++ .pmhrp :: dwc.map .pmstep ++ [.pmvfy]

/-- `DECSTR "str"`. -/
def decstr (str : List Byte) : List Instr := sbstr str ++ [.decode]

/-! ## Reading a result off the ports (R96)

Each reader takes what the block sent during the transaction, in order.  DESIGN CHOICE, safe (log entry 12). -/

/-- The data of the beats of one tag, in order. -/
def dataOf (tag : Tag) (o : List Output) : List Byte :=
  (o.filterMap Output.beat?).filterMap fun b => if b.tag = tag then some b.data else none

/-- The response of the transaction's last command. -/
def lastResponse (o : List Output) : Option Response := (o.filterMap Output.response?).getLast?

/-- The status of the first response that is not OK. -/
def firstFailure (o : List Output) : Option Status :=
  (o.filterMap Output.response?).findSome? fun r => if r.status = .ok then none else some r.status

/-- The result of a REPACK transaction: the RPV data if RPEND answered OK; an error, with every beat thrown away, if
it answered with one. -/
def readRepack (o : List Output) : Option (Except HsError (List Byte)) :=
  match lastResponse o with
  | none => none
  | some r => if r.status = .ok then some (.ok (dataOf .rpv o)) else (errorOfStatus r.status).map .error

/-- The result of an ENCODE transaction: the CHAR data if every response was OK; else it fails, with the status of the
first command that failed, whatever a host that goes on (R175 says it must not) makes the block send after it.  That
status is E_OVERFLOW, of an hrp of more than 90 characters. -/
def readEncode (o : List Output) : Option (Except Status (List Byte)) :=
  match lastResponse o with
  | none => none
  | some _ =>
    match firstFailure o with
    | none => some (.ok (dataOf .char o))
    | some status => some (.error status)

/-- The result of a VERIFY transaction: VALUE of the PMVFY response, 1 for true and 0 for false. -/
def readVerify (o : List Output) : Option Bool :=
  match lastResponse o with
  | none => none
  | some r => if r.status = .ok then some (r.value == 1) else none

/-- The result of a POLYMOD sequence: VALUE of the PMRD response. -/
def readPolymod (o : List Output) : Option Value := (lastResponse o).map (·.value)

/-- H of a DECODE response, `VALUE[6:0]` (R92). -/
def hrpLength (v : Value) : Nat := (v.extractLsb' 0 7).toNat

/-- D of a DECODE response, `VALUE[14:8]` (R92). -/
def dataLength (v : Value) : Nat := (v.extractLsb' 8 7).toNat

/-- The result of a DECSTR transaction: with OK, the first H CHAR beats and the D SYM beats; any other status is the
null result, with its reason. -/
def readDecode (o : List Output) : Option (Except HsError (List Byte × List Byte)) :=
  match lastResponse o with
  | none => none
  | some r =>
    if r.status = .ok then
      some (.ok ((dataOf .char o).take (hrpLength r.value), (dataOf .sym o).take (dataLength r.value)))
    else (errorOfStatus r.status).map .error

end Sys2Proof.Machine
end

