-- ==== Sys2Proof/Safety.lean ====
section
/-! DEFINITION. What claims about the block are stated in: its legal states (spec/10_state.md rule R38), what the
buffer's flags say about the string (spec/43_buffer_system.md R164), and when two states cannot be told apart. -/

namespace Sys2Proof.Machine

/-- The registers in the ranges R38 gives for the states between commands.  That CHK is below 2^30 and ACC below 2^15
is in their types. -/
structure State.RegsLegal (s : State) : Prop where
  fromLegal : legalWidth s.fromBits = true
  toLegal : legalWidth s.toBits = true
  bitsBelow : s.bits.toNat < s.toBits.toNat
  lenLegal : s.len.toNat ≤ Config.lenOver
  emptyClear : s.len = 0 → s.np = false ∧ s.low = false ∧ s.upp = false

/-- A legal state: legal registers, and the string buffer in its one form with cells 0 to 89 only (R60). -/
structure State.Inv (s : State) : Prop where
  regs : s.RegsLegal
  mem : s.sb.wf = true

/-- Every cell below `min(LEN, 90)` has been written (R31, R160): no command reads a cell whose content is
unspecified. -/
def State.StringWritten (s : State) : Prop := ∀ a < min s.len.toNat Config.sbCap, (s.sb.read a).isSome

/-- What a sticky flag says of the characters with property `p`: it is set if the string held has one, and, while no
character has been lost, only then (R164). -/
def flagTells (s : State) (flag : Bool) (p : Byte → Bool) : Prop :=
  (s.string.any p = true → flag = true) ∧
  (s.len.toNat ≤ Config.sbCap → flag = true → s.string.any p = true)

/-- The buffer's flags describe the string (R164). -/
structure State.FlagsTell (s : State) : Prop where
  np : flagTells s s.np (fun c => !printable c)
  low : flagTells s s.low isLower
  upp : flagTells s s.upp isUpper

/-- The valid bits of ACC, `ACC[BITS-1:0]` (R24), as a number. -/
def State.validAcc (s : State) : Nat := s.acc.toNat % 2 ^ s.bits.toNat

/-- Two states the outside cannot tell apart from now on: they agree in everything but the stale bits of ACC (R117),
the cells of SB beyond the string (R31), and what was sent before. -/
structure State.Alike (s t : State) : Prop where
  chk : s.chk = t.chk
  acc : s.validAcc = t.validAcc
  bits : s.bits = t.bits
  fromBits : s.fromBits = t.fromBits
  toBits : s.toBits = t.toBits
  pad : s.pad = t.pad
  rpe : s.rpe = t.rpe
  len : s.len = t.len
  np : s.np = t.np
  low : s.low = t.low
  upp : s.upp = t.upp
  string : s.string = t.string
  inputs : s.inputs = t.inputs

/-- The repacker's commands; the state they touch is touched by no other command but SRST (R32). -/
def repackerCommand : Instr → Bool
  | .rpcfg _ _ _ => true
  | .rppush _ => true
  | .rpend => true
  | .srst => false
  | .sbclr => false
  | .sbput _ => false
  | .pminit => false
  | .pmstep _ => false
  | .pmhrp => false
  | .pmrd => false
  | .pmvfy => false
  | .cxenc _ => false
  | .cxdec _ => false
  | .enchrp => false
  | .encsym _ => false
  | .encfin => false
  | .decode => false

/-- The state `s` after it has given some beats and then one response on its ports (R34, R35): how a claim writes the
end of a command. -/
def State.answers (s : State) (bs : List Beat) (status : Status) (value : Value) : State :=
  { s with sent := s.sent ++ bs.map Output.beat ++ [.response ⟨status, value⟩] }

/-- Every response among some outputs is OK. -/
def allOk (o : List Output) : Prop := ∀ r ∈ o.filterMap Output.response?, r.status = .ok

end Sys2Proof.Machine
end

