-- ==== Sys2Proof/Certificates/Slice0/Obligations.lean ====
section
/-! DEFINITION. The statements about the block, from the numbered rules of the spec.  A state's `sent` is the record of
beats and responses in the order the block gives them (log entry 3); `s.answers bs status value` is `s` with those
beats and then that response added to it.  `inputs` is what the outside does next (log entry 4).  A rule the spec marks
[derived] is its inference, and a statement of one says so. -/

open Sys2Proof Sys2Proof.Machine

/-! ## Command words (spec/30_encoding.md) -/

/-- R84, R85: no bit of an encoding is dropped. -/
def Obligations.DecodeOfEncodeIsTheCommand : Prop :=
  ∀ i : Instr, WellFormed i = true → decode (encode i) = .ok i

/-- R84, R85, R89: a word the decoder takes is the one word of the command it gives, and that command is well formed;
so no must-be-zero bit is ignored and no two words mean the same command. -/
def Obligations.EncodeOfDecodeIsTheWord : Prop :=
  ∀ (w : CmdWord) (i : Instr), decode w = .ok i → WellFormed i = true ∧ encode i = w

/-- R89 and R209, whole: which words are illegal, and what one does.  -/
def Obligations.IllegalWordsAreRefused : Prop :=
  (∀ w : CmdWord, (∃ e, decode w = .error e) ↔
    w.extractLsb' 8 8 ∉ ([0x01, 0x10, 0x11, 0x20, 0x21, 0x22, 0x30, 0x31, 0x32, 0x33, 0x34, 0x40, 0x41, 0x50, 0x51,
      0x52, 0x60] : List (BitVec 8)) ∨
    (w.extractLsb' 8 8 ∈ ([0x01, 0x10, 0x22, 0x30, 0x32, 0x33, 0x34, 0x50, 0x52, 0x60] : List (BitVec 8)) ∧
      w.extractLsb' 0 8 ≠ 0) ∨
    (w.extractLsb' 8 8 ∈ ([0x31, 0x40, 0x51] : List (BitVec 8)) ∧ w.extractLsb' 5 3 ≠ 0) ∨
    (w.extractLsb' 8 8 = 0x20 ∧ w.getLsbD 7 = true)) ∧
  (∃ e, decode 0x0000 = .error e) ∧ (∃ e, decode 0xFFFF = .error e) ∧
  (∀ (s : State) (w : CmdWord) (rest : List Input) (e : Illegal), s.inputs = .command w :: rest →
    decode w = .error e → step s = .next ({ s with inputs := rest }.answers [] .eIllegal 0))

/-- R84, R88, R93: words written out from the opcode map decode to the commands they stand for. -/
def Obligations.SampleWordsDecode : Prop :=
  decode 0b0000000100000000 = .ok .srst ∧
  decode 0b0001000101000001 = .ok (.sbput 0x41) ∧
  decode 0b0010000001111100 = .ok (.rpcfg 8 5 true) ∧
  decode 0b0010000000100111 = .ok (.rpcfg 5 8 false) ∧
  decode 0b0010000111111111 = .ok (.rppush 0xFF) ∧
  decode 0b0011000100000011 = .ok (.pmstep 3) ∧
  decode 0b0100000000011101 = .ok (.cxenc 29) ∧
  decode 0b0100000101101100 = .ok (.cxdec 0x6C) ∧
  decode 0b0101000100011111 = .ok (.encsym 31) ∧
  decode 0b0110000000000000 = .ok .decode

/-- R93; I12, I13: what the assembler makes is a well-formed command of that mnemonic, and it can make every one, from
numbers alone; it takes a number exactly in its operand's range; and it makes a command exactly from its mnemonic and
operands that are the command's own values (a byte also from the quoted character of its code).  That a quoted
character is taken only below 128, and that what is out of range is refused, is log entry 11. -/
def Obligations.AssemblerMakesTheWellFormedCommands : Prop :=
  (∀ (m : String) (ops : List AsmOperand) (i : Instr), assemble m ops = some i → WellFormed i = true ∧ mnemonicOf i = m) ∧
  (∀ i : Instr, WellFormed i = true → ∃ ns : List Nat, assemble (mnemonicOf i) (ns.map .number) = some i) ∧
  (∀ m ∈ ["SBPUT", "RPPUSH", "CXDEC"], ∀ n : Nat, (∃ i, assemble m [.number n] = some i) ↔ n < 256) ∧
  (∀ m ∈ ["PMSTEP", "CXENC", "ENCSYM"], ∀ n : Nat, (∃ i, assemble m [.number n] = some i) ↔ n < 32) ∧
  (∀ f t p : Nat, (∃ i, assemble "RPCFG" [.number f, .number t, .number p] = some i) ↔
    (1 ≤ f ∧ f ≤ 8) ∧ (1 ≤ t ∧ t ≤ 8) ∧ p < 2) ∧
  (∀ (m : String) (ops : List AsmOperand) (i : Instr), WellFormed i = true → (assemble m ops = some i ↔
    m = mnemonicOf i ∧
    match i with
    | .sbput c | .rppush c | .cxdec c =>
      ops = [.number c.toNat] ∨ ∃ q : Char, q.toNat < 128 ∧ q.toNat = c.toNat ∧ ops = [.quoted q]
    | .pmstep x | .cxenc x | .encsym x => ops = [.number x.toNat]
    | .rpcfg f t p => ops = [.number f.toNat, .number t.toNat, .number p.toNat]
    | _ => ops = []))

/-! ## Steps (spec/00_scope.md R9, spec/20_memory.md R71, spec/70_reset_and_hazards.md R230) -/

/-- R9, R22: a step takes the next word and runs the command it decodes to, consuming the word once. -/
def Obligations.StepRunsTheDecodedCommand : Prop :=
  (∀ (s : State) (w : CmdWord) (rest : List Input) (i : Instr), s.inputs = .command w :: rest → decode w = .ok i →
    step s = exec i { s with inputs := rest }) ∧
  (∀ (s : State) (w : CmdWord) (i : Instr), decode w = .ok i → step (s.withFetchWord 16 w.toNat) = exec i s)

/-- With nothing on the port nothing changes (R9); the reset input gives the reset state, no response and no beat, and
keeps what was sent (R230, R34).  That the reset input is one event on the input record is the model's form (log
entry 4). -/
def Obligations.WaitingAndTheResetInput : Prop :=
  (∀ s : State, s.inputs = [] → step s = .next s) ∧
  (∀ (s : State) (rest : List Input), s.inputs = .reset :: rest →
    step s = .next { State.reset with sent := s.sent, inputs := rest })

/-- R71: a list of command words given in order has the effect of the commands one after another, each on the state
the one before it left, whatever is given after them. -/
def Obligations.CommandsTakeEffectInOrder : Prop :=
  ∀ (is : List Instr) (s : State) (rest : List Input), (∀ i ∈ is, WellFormed i = true) →
    s.inputs = is.map (fun i => Input.command (encode i)) ++ rest →
    Host.Core.run Sys2Proof.core is.length s = execAll is { s with inputs := rest }

/-! ## Reset (spec/10_state.md R37) -/

/-- R37: every register in the reset state, after the reset input and after SRST, which both always run; OUT is empty
for a model that starts at reset; and what the cells of SB hold then can never be seen. -/
def Obligations.ResetValues : Prop :=
  (∀ r : State, r = State.reset ∨ (∃ (s : State) (rest : List Input), s.inputs = .reset :: rest ∧ step s = .next r) ∨
      (∃ s : State, exec .srst s = .next r) →
    r.chk = 1 ∧ r.acc = 0 ∧ r.bits = 0 ∧ r.fromBits = 8 ∧ r.toBits = 5 ∧ r.pad = true ∧ r.rpe = false ∧ r.len = 0 ∧
    r.np = false ∧ r.low = false ∧ r.upp = false) ∧
  (∀ (s : State) (rest : List Input), s.inputs = .reset :: rest → ∃ r, step s = .next r) ∧
  (∀ s : State, ∃ r, exec .srst s = .next r) ∧
  State.reset.out = [] ∧
  (∀ (m : Memory) (is : List Instr), (∀ i ∈ is, WellFormed i = true) →
    ∃ t t' : State, execAll is State.reset = .next t ∧ execAll is { State.reset with sb := m } = .next t' ∧
      t'.sent = t.sent)

/-- The invariants below hold at reset. -/
def Obligations.ResetStateIsLegal : Prop :=
  State.reset.Inv ∧ State.reset.StringWritten ∧ State.reset.FlagsTell

/-! ## What every step keeps -/

/-- R38 (marked [derived] by the spec): the register ranges, and the one form of the string buffer. -/
def Obligations.EveryStepKeepsTheStateLegal : Prop :=
  ∀ s t : State, s.Inv → step s = .next t → t.Inv

/-- R31, R164 (marked [derived]): every cell of the string has been written, and the sticky flags describe the
string. -/
def Obligations.EveryStepKeepsTheStringFacts : Prop :=
  ∀ s t : State, s.Inv → s.StringWritten → s.FlagsTell → step s = .next t → t.StringWritten ∧ t.FlagsTell

/-- R208: from a legal state no command and no word hangs, faults or is refused. -/
def Obligations.NoLegalStateStops : Prop :=
  (∀ s : State, s.Inv → ∃ t, step s = .next t) ∧
  (∀ (i : Instr) (s : State), s.RegsLegal → ∃ t, exec i s = .next t)

/-- R35, R34, R241: a command word, legal or not, is consumed and gives at most 91 beats and then exactly one response,
after everything sent before; and no command reads what was sent. -/
def Obligations.EveryCommandAnswersOnceAfterItsBeats : Prop :=
  ∀ (s t : State) (w : CmdWord) (rest : List Input), s.inputs = .command w :: rest → step s = .next t →
    t.inputs = rest ∧
    (∃ (bs : List Beat) (status : Status) (value : Value), bs.length ≤ 91 ∧
      t.sent = s.sent ++ bs.map Output.beat ++ [.response ⟨status, value⟩]) ∧
    ∀ before : List Output,
      step { s with sent := before } = .next { t with sent := before ++ t.sent.drop s.sent.length }

/-- R34's table: which commands emit which beats, and the range of their data. -/
def Obligations.BeatsComeFromTheirCommandsInRange : Prop :=
  ∀ (i : Instr) (s t : State), exec i s = .next t → ∀ b : Beat, .beat b ∈ t.sent.drop s.sent.length →
    (b.tag = .char → i = .enchrp ∨ (∃ x, i = .encsym x) ∨ i = .encfin ∨ i = .decode) ∧
    (b.tag = .sym → i = .decode ∧ b.data.toNat < 32) ∧
    (b.tag = .rpv → ((∃ c, i = .rppush c) ∨ i = .rpend) ∧ b.data.toNat < 2 ^ s.toBits.toNat)

/-- R205, R202, R201: for each status that is not OK, which command gives it, exactly what has changed, and that no
beat was emitted; and an illegal word changes nothing. -/
def Obligations.FailedCommandsChangeOnlyWhatR205Says : Prop :=
  (∀ (i : Instr) (s t : State) (o : List Output) (status : Status) (value : Value), exec i s = .next t →
    t.sent = s.sent ++ o ++ [.response ⟨status, value⟩] → status ≠ .ok →
    match i with
    | .sbput c => status = .eOverflow ∧
        t = { s with len := 91, np := s.np || decide (c.toNat < 33 ∨ 126 < c.toNat),
                     low := s.low || decide (0x61 ≤ c.toNat ∧ c.toNat ≤ 0x7A),
                     upp := s.upp || decide (0x41 ≤ c.toNat ∧ c.toNat ≤ 0x5A) }.answers [] status 91
    | .pmhrp => status = .eOverflow ∧ t = s.answers [] status 0
    | .enchrp => status = .eOverflow ∧ t = s.answers [] status 0
    | .cxdec _ => status = .eCharset ∧ t = s.answers [] status 0
    | .rppush _ => status = .eWidth ∧ t = { s with rpe := true }.answers [] status 0
    | .rpend => (status = .eWidth ∨ status = .ePadding) ∧
        t = { s with acc := 0, bits := 0, rpe := false }.answers [] status 0
    | .decode =>
        (status = .eChecksum ∧ ∃ pos, lastSep s.string = some pos ∧
          t = { s with chk := polymod (expand ((s.string.take pos).map lower) ++
                  (((s.string.drop (pos + 1)).map lower).filterMap charDec).map zext30) }.answers [] status 0) ∨
        ((status = .eCharset ∨ status = .eMixedCase ∨ status = .eSeparator ∨ status = .eLength) ∧
          t = s.answers [] status 0)
    | _ => False) ∧
  (∀ (s : State) (w : CmdWord) (rest : List Input) (e : Illegal), s.inputs = .command w :: rest →
    decode w = .error e → step s = .next ({ s with inputs := rest }.answers [] .eIllegal 0))

/-- The three faults of the model are raised exactly where a rule's computation has no meaning: LEN above 91 or TO at 0
is outside the range R20 gives the register, and BITS above TO is what R38 excludes (`BITS < TO`), each register's own
range allowing it.  No command is refused.  (The faults are the model's, log entry 5.) -/
def Obligations.FaultsAreRaisedExactlyOutsideTheRanges : Prop :=
  ∀ (i : Instr) (s : State),
    (∀ f : Fault, exec i s = .fault f ↔
      (f = .noSuchCell ∧ 91 < s.len.toNat ∧
        (i = .pmhrp ∨ i = .enchrp ∨ (i = .decode ∧ s.np = false ∧ (s.low && s.upp) = false))) ∨
      (f = .zeroWidth ∧ s.toBits = 0 ∧ s.rpe = false ∧ ∃ c : Byte, i = .rppush c ∧ c.toNat < 2 ^ s.fromBits.toNat) ∨
      (f = .negativeShift ∧ s.toBits.toNat < s.bits.toNat ∧ s.rpe = false ∧ i = .rpend)) ∧
    (∀ r : Refusal, exec i s ≠ .refused r)

/-- R31, R117, I2, I3: the cells of SB past the string, the stale bits of ACC and everything sent before never change
what the block does: states that differ only there answer alike and stay alike. -/
def Obligations.AlikeStatesAnswerAlike : Prop :=
  ∀ s s' t : State, s.RegsLegal → s.Alike s' → step s = .next t →
    ∃ (t' : State) (o : List Output), step s' = .next t' ∧ t.sent = s.sent ++ o ∧ t'.sent = s'.sent ++ o ∧ t.Alike t'

/-! ## The string buffer and system commands (spec/43_buffer_system.md) -/

/-- R161, whole. -/
def Obligations.SbclrEmptiesTheBuffer : Prop :=
  decode 0b0001000000000000 = .ok .sbclr ∧
  ∀ s : State, exec .sbclr s =
    .next ({ s with len := 0, np := false, low := false, upp := false }.answers [] .ok 0)

/-- R163: the state SRST leaves, and that from then on the block does what it does after reset. -/
def Obligations.SrstActsAsReset : Prop :=
  decode 0b0000000100000000 = .ok .srst ∧
  (∀ s : State, exec .srst s =
    .next ({ s with chk := 1, acc := 0, bits := 0, fromBits := 8, toBits := 5, pad := true, rpe := false, len := 0,
                    np := false, low := false, upp := false }.answers [] .ok 0)) ∧
  (∀ (s : State) (is : List Instr), (∀ i ∈ is, WellFormed i = true) →
    ∃ u t t' : State, exec .srst s = .next u ∧ execAll is u = .next t' ∧ execAll is State.reset = .next t ∧
      t'.sent = u.sent ++ t.sent)

/-- R162, whole: the flags see every character; the first 90 are stored at cell LEN, the others dropped. -/
def Obligations.SbputAppendsOrOverflows : Prop :=
  (∀ c : Byte, decode (0b00010001#8 ++ c) = .ok (.sbput c)) ∧
  ∀ (c : Byte) (s : State),
    let np := s.np || decide (c.toNat < 33 ∨ 126 < c.toNat)
    let low := s.low || decide (0x61 ≤ c.toNat ∧ c.toNat ≤ 0x7A)
    let upp := s.upp || decide (0x41 ≤ c.toNat ∧ c.toNat ≤ 0x5A)
    (s.len.toNat < 90 → ∃ t : State, exec (.sbput c) s = .next t ∧
      t = { s with np := np, low := low, upp := upp, len := s.len + 1, sb := t.sb }.answers [] .ok
            (BitVec.ofNat 32 (s.len.toNat + 1)) ∧
      t.cell s.len.toNat = c ∧ ∀ a, a ≠ s.len.toNat → t.cell a = s.cell a) ∧
    (90 ≤ s.len.toNat → exec (.sbput c) s =
      .next ({ s with np := np, low := low, upp := upp, len := 91 }.answers [] .eOverflow 91))

/-- R164 (marked [derived]): what loading a string of any length leaves, from any state, and the responses. -/
def Obligations.LoadingAStringLeavesIt : Prop :=
  ∀ (str : List Byte) (s : State), ∃ t : State, execAll (sbstr str) s = .next t ∧
    t.string = str.take 90 ∧ t.len.toNat = min str.length 91 ∧
    t.np = str.any (fun c => decide (c.toNat < 33 ∨ 126 < c.toNat)) ∧
    t.low = str.any (fun c => decide (0x61 ≤ c.toNat ∧ c.toNat ≤ 0x7A)) ∧
    t.upp = str.any (fun c => decide (0x41 ≤ c.toNat ∧ c.toNat ≤ 0x5A)) ∧
    t.sent = s.sent ++ .response ⟨.ok, 0⟩ :: (List.range str.length).map (fun n =>
      if n < 90 then .response ⟨.ok, BitVec.ofNat 32 (n + 1)⟩ else .response ⟨.eOverflow, 91⟩)

/-! ## The repacker (spec/40_repacker.md) -/

/-- R113, whole. -/
def Obligations.RpcfgConfiguresAndClears : Prop :=
  (∀ (p : Bool) (f t : BitVec 3),
    decode (0b00100000#8 ++ 0#1 ++ BitVec.ofBool p ++ f ++ t) = .ok (.rpcfg (f.setWidth 4 + 1) (t.setWidth 4 + 1) p)) ∧
  ∀ (f t : BitVec 4) (p : Bool) (s : State), exec (.rpcfg f t p) s =
    .next ({ s with fromBits := f, toBits := t, pad := p, acc := 0, bits := 0, rpe := false }.answers [] .ok 0)

/-- R114, for every state whose TO is not 0: the two width errors; and the values sent, whose count is
`floor((BITS + FROM) / TO)`, each TO bits of the accumulator from the top of the valid bits down.  In the ranges of R38
the count is at most 8, and 8 only for FROM = 8, TO = 1 (R114 marks count and bound [derived]).  ACC is all 15 bits as
R114 computes it, the stale ones too: log entry 14 (I3 allows a model to clear them). -/
def Obligations.RppushSendsTheTopBits : Prop :=
  (∀ c : Byte, decode (0b00100001#8 ++ c) = .ok (.rppush c)) ∧
  ∀ (c : Byte) (s : State),
    let fromW := s.fromBits.toNat
    let toW := s.toBits.toNat
    let total := s.bits.toNat + fromW
    let acc := (s.acc.toNat * 2 ^ fromW ||| c.toNat) % 2 ^ 15
    (s.rpe = true → exec (.rppush c) s = .next (s.answers [] .eWidth 0)) ∧
    (s.rpe = false → 2 ^ fromW ≤ c.toNat → exec (.rppush c) s = .next ({ s with rpe := true }.answers [] .eWidth 0)) ∧
    (s.rpe = false → c.toNat < 2 ^ fromW → s.toBits ≠ 0 → exec (.rppush c) s =
      .next ({ s with acc := BitVec.ofNat 15 acc, bits := BitVec.ofNat 4 (total % toW) }.answers
        ((List.range (total / toW)).map fun k =>
          Beat.mk .rpv (BitVec.ofNat 8 (acc / 2 ^ (total - (k + 1) * toW) % 2 ^ toW)))
        .ok (BitVec.ofNat 32 (total / toW)))) ∧
    (1 ≤ fromW ∧ fromW ≤ 8 → s.bits.toNat < toW → total / toW ≤ 8 ∧ (total / toW = 8 → fromW = 8 ∧ toW = 1))

/-- R115, whole, for every state with BITS at most TO. -/
def Obligations.RpendChecksOrPadsTheLeftover : Prop :=
  decode 0b0010001000000000 = .ok .rpend ∧
  ∀ s : State,
    let u := { s with acc := 0, bits := 0, rpe := false }
    let last := s.acc.toNat * 2 ^ (s.toBits.toNat - s.bits.toNat) % 2 ^ s.toBits.toNat
    (s.rpe = true → exec .rpend s = .next (u.answers [] .eWidth 0)) ∧
    (s.rpe = false → s.bits.toNat ≤ s.toBits.toNat →
      (s.pad = true → s.bits = 0 → exec .rpend s = .next (u.answers [] .ok 0)) ∧
      (s.pad = true → s.bits ≠ 0 → exec .rpend s = .next (u.answers [⟨.rpv, BitVec.ofNat 8 last⟩] .ok 1)) ∧
      (s.pad = false → s.fromBits.toNat ≤ s.bits.toNat ∨ last ≠ 0 →
        exec .rpend s = .next (u.answers [] .ePadding 0)) ∧
      (s.pad = false → s.bits.toNat < s.fromBits.toNat → last = 0 → exec .rpend s = .next (u.answers [] .ok 0)))

/-- R111, R118, R63: REPACK reads the values as one big-endian bit string and cuts it anew, for every accumulator
width from `from + to - 1` up (R117).  (R117 and R118 are marked [derived].) -/
def Obligations.RepackCutsTheBitString : Prop :=
  ∀ (width fromW toW : Nat) (pad : Bool) (d : List Nat), 1 ≤ fromW → fromW ≤ 8 → 1 ≤ toW → toW ≤ 8 →
    fromW + toW - 1 ≤ width → (∀ v ∈ d, v < 2 ^ fromW) →
    let number := d.foldl (fun n v => n * 2 ^ fromW + v) 0
    let total := d.length * fromW
    let left := total % toW
    let full := (List.range (total / toW)).map fun k => number / 2 ^ (total - (k + 1) * toW) % 2 ^ toW
    repackWith width d fromW toW pad =
      if pad then .ok (if left = 0 then full else full ++ [number % 2 ^ left * 2 ^ (toW - left)])
      else if fromW ≤ left ∨ number % 2 ^ left ≠ 0 then .error .invalidPadding
      else .ok full

/-- R110, R111: an element out of range makes the result InvalidInputWidth, whatever else is true of the data; and
every output is below `2^to_bits`. -/
def Obligations.RepackRejectsWideValuesAndStaysInRange : Prop :=
  ∀ (d : List Nat) (fromW toW : Nat) (pad : Bool), 1 ≤ fromW → fromW ≤ 8 → 1 ≤ toW → toW ≤ 8 →
    ((∃ v ∈ d, 2 ^ fromW ≤ v) → repack d fromW toW pad = .error .invalidInputWidth) ∧
    (∀ ret, repack d fromW toW pad = .ok ret → ∀ v ∈ ret, v < 2 ^ toW)

/-- R118 (marked [derived]): bytes repacked to symbols and back, strictly, are the bytes. -/
def Obligations.RepackRoundTrip : Prop :=
  ∀ d : List Nat, (∀ v ∈ d, v < 256) → ∃ syms, repack d 8 5 true = .ok syms ∧
    syms.length = (8 * d.length + 4) / 5 ∧ repack syms 5 8 false = .ok d

/-- R116 (marked [derived]), read as R96 says: a REPACK transaction, from any state, gives REPACK's result, and leaves
the repacker empty with its configuration. -/
def Obligations.RepackTransactionGivesREPACK : Prop :=
  ∀ (f t : BitVec 4) (pad : Bool) (d : List Byte) (s : State), legalWidth f = true → legalWidth t = true →
    ∃ (u : State) (o : List Output), execAll (repackSeq f t pad d) s = .next u ∧ u.sent = s.sent ++ o ∧
      readRepack o = some ((repack (d.map BitVec.toNat) f.toNat t.toNat pad).map (List.map (BitVec.ofNat 8))) ∧
      u = { s with fromBits := f, toBits := t, pad := pad, acc := 0, bits := 0, rpe := false, sent := s.sent ++ o }

/-- R116, second case (marked [derived]): from the first value out of range on, every RPPUSH and the RPEND answer
E_WIDTH and emit nothing; the values before it are answered OK. -/
def Obligations.RepackWidthErrorIsSticky : Prop :=
  ∀ (f t : BitVec 4) (pad : Bool) (good bad : List Byte) (c : Byte) (s : State), legalWidth f = true →
    legalWidth t = true → (∀ v ∈ good, v.toNat < 2 ^ f.toNat) → 2 ^ f.toNat ≤ c.toNat →
    ∃ (m u : State) (o : List Output), execAll (.rpcfg f t pad :: good.map .rppush) s = .next m ∧
      m.sent = s.sent ++ o ∧ allOk o ∧ execAll (repackSeq f t pad (good ++ c :: bad)) s = .next u ∧
      u.sent = m.sent ++ List.replicate (bad.length + 2) (.response ⟨.eWidth, 0⟩)

/-! ## The polymod unit (spec/41_polymod.md) -/

/-- R130, R6: the step, bit i of the top five selecting the constant of index i.  The mask before the shift and that
pairing are log entry 6 (PRESUMED: R130's readings (a) and (b), the pairing from general knowledge). -/
def Obligations.PolystepIsTheStepOfR130 : Prop :=
  ∀ c v : Word30, polystep c v =
    BitVec.ofNat 30 (c.toNat % 2 ^ 25 * 2 ^ 5) ^^^ v ^^^
      (if c.getLsbD 25 then 0x3b6a57b2 else 0) ^^^ (if c.getLsbD 26 then 0x26508e6d else 0) ^^^
      (if c.getLsbD 27 then 0x1ea119fa else 0) ^^^ (if c.getLsbD 28 then 0x3d4233dd else 0) ^^^
      (if c.getLsbD 29 then 0x2a1462b3 else 0)

/-- R141 (a) (marked [derived]). -/
def Obligations.PolystepIsLinear : Prop :=
  ∀ c₁ c₂ v₁ v₂ : Word30, polystep (c₁ ^^^ c₂) (v₁ ^^^ v₂) = polystep c₁ v₁ ^^^ polystep c₂ v₂

/-- R142 (marked [derived]): changing one symbol of a sequence that checks makes it not check. -/
def Obligations.OneWrongSymbolIsDetected : Prop :=
  ∀ (xs ys : List Word30) (a b : Sym), polymod (xs ++ [zext30 a] ++ ys) = 1 → b ≠ a →
    polymod (xs ++ [zext30 b] ++ ys) ≠ 1

/-- R134 and R135, whole. -/
def Obligations.PminitAndPmstep : Prop :=
  decode 0b0011000000000000 = .ok .pminit ∧
  (∀ x : Sym, decode (0b00110001#8 ++ 0#3 ++ x) = .ok (.pmstep x)) ∧
  ∀ s : State, exec .pminit s = .next ({ s with chk := 1 }.answers [] .ok 0) ∧
    ∀ x : Sym, exec (.pmstep x) s = .next ({ s with chk := polystep s.chk (x.setWidth 30) }.answers [] .ok 0)

/-- R136, with the expansion of R132 written out, for every LEN in its range. -/
def Obligations.PmhrpChecksumsTheExpandedString : Prop :=
  decode 0b0011001000000000 = .ok .pmhrp ∧
  ∀ s : State,
    (s.len = 91 → exec .pmhrp s = .next (s.answers [] .eOverflow 0)) ∧
    (s.len.toNat ≤ 90 →
      let str := (List.range s.len.toNat).map s.cell
      exec .pmhrp s = .next ({ s with chk := polymod (str.map (fun (h : Byte) => BitVec.ofNat 30 (h.toNat / 32)) ++ [0] ++
        str.map (fun (h : Byte) => BitVec.ofNat 30 (h.toNat % 32))) }.answers [] .ok (BitVec.ofNat 32 s.len.toNat)))

/-- R137 and R138, whole: the value of CHK, and 1 if it is 1, else 0. -/
def Obligations.PmrdAndPmvfyAnswerFromChk : Prop :=
  decode 0b0011001100000000 = .ok .pmrd ∧ decode 0b0011010000000000 = .ok .pmvfy ∧
  ∀ s : State, exec .pmrd s = .next (s.answers [] .ok (BitVec.ofNat 32 s.chk.toNat)) ∧
    (s.chk = 1 → exec .pmvfy s = .next (s.answers [] .ok 1)) ∧
    (s.chk ≠ 1 → exec .pmvfy s = .next (s.answers [] .ok 0))

/-- R140 (marked [derived]): the unit is POLYMOD's fold cut into steps. -/
def Obligations.PolymodSequenceGivesPOLYMOD : Prop :=
  ∀ (vs : List Sym) (s : State), ∃ (u : State) (o : List Output), execAll (polymodSeq vs) s = .next u ∧
    u.sent = s.sent ++ o ∧ allOk o ∧ readPolymod o = some (BitVec.ofNat 32 (polymod (vs.map zext30)).toNat) ∧
    u = { s with chk := polymod (vs.map zext30), sent := s.sent ++ o }

/-- R139 (marked [derived]), read as R96 says. -/
def Obligations.VerifyTransactionGivesVERIFY : Prop :=
  ∀ (hrp : List Byte) (dwc : List Sym) (s : State), hrp.length ≤ 90 →
    ∃ (u : State) (o : List Output), execAll (verifySeq hrp dwc) s = .next u ∧ u.sent = s.sent ++ o ∧ allOk o ∧
      readVerify o = some (verifyF hrp dwc)

/-! ## The character unit (spec/42_base32.md) -/

/-- R150, R152, R153, R154: the character is the alphabet's, and the symbol is the index of the lower-cased character,
or E_CHARSET when it has none.  The characters' codes and the uppercase range 0x41 to 0x5A are log entry 7 (PRESUMED:
US-ASCII, which R150 and R152 take from general knowledge, GK2). -/
def Obligations.CharacterCommandsUseTheAlphabet : Prop :=
  (∀ x : Sym, decode (0b01000000#8 ++ 0#3 ++ x) = .ok (.cxenc x)) ∧
  (∀ c : Byte, decode (0b01000001#8 ++ c) = .ok (.cxdec c)) ∧
  (∀ (x : Sym) (s : State), ∃ ch : Char, "qpzry9x8gf2tvdw0s3jn54khce6mua7l".toList[x.toNat]? = some ch ∧
    exec (.cxenc x) s = .next (s.answers [] .ok (BitVec.ofNat 32 ch.toNat))) ∧
  (∀ (c : Byte) (s : State),
    let low := if 0x41 ≤ c.toNat ∧ c.toNat ≤ 0x5A then c + 0x20 else c
    (∀ x : Sym, charEnc x = low → exec (.cxdec c) s = .next (s.answers [] .ok (BitVec.ofNat 32 x.toNat))) ∧
    ((∀ x : Sym, charEnc x ≠ low) → exec (.cxdec c) s = .next (s.answers [] .eCharset 0)))

/-- R155 (marked [derived]): the two tables are inverse, and no alphabet character is the separator, an uppercase
letter or unprintable. -/
def Obligations.CharacterTablesAreInverse : Prop :=
  (∀ x : Sym, charDec (charEnc x) = some x) ∧ (∀ (c : Byte) (x : Sym), charDec c = some x → charEnc x = c) ∧
  (∀ x : Sym, printable (charEnc x) = true ∧ isUpper (charEnc x) = false ∧ charEnc x ≠ 0x31)

/-! ## The encoder (spec/44_encode.md) -/

/-- R172, whole, for every LEN in its range. -/
def Obligations.EnchrpSendsTheHrpAndSeparator : Prop :=
  decode 0b0101000000000000 = .ok .enchrp ∧
  ∀ s : State,
    (s.len = 91 → exec .enchrp s = .next (s.answers [] .eOverflow 0)) ∧
    (s.len.toNat ≤ 90 →
      let str := (List.range s.len.toNat).map s.cell
      exec .enchrp s = .next ({ s with chk := polymod (expand str) }.answers
        (str.map (Beat.mk .char) ++ [Beat.mk .char 0x31]) .ok (BitVec.ofNat 32 s.len.toNat)))

/-- R173 and R174, whole. -/
def Obligations.EncsymAndEncfinSendCharacters : Prop :=
  (∀ x : Sym, decode (0b01010001#8 ++ 0#3 ++ x) = .ok (.encsym x)) ∧ decode 0b0101001000000000 = .ok .encfin ∧
  (∀ (x : Sym) (s : State), exec (.encsym x) s =
    .next ({ s with chk := polystep s.chk (x.setWidth 30) }.answers [⟨.char, charEnc x⟩] .ok
      ((charEnc x).setWidth 32))) ∧
  (∀ s : State,
    let c := polystep (polystep (polystep (polystep (polystep (polystep s.chk 0) 0) 0) 0) 0) 0
    let m := c ^^^ 1
    exec .encfin s = .next ({ s with chk := c }.answers
      ([25, 20, 15, 10, 5, 0].map fun k => Beat.mk .char (charEnc (BitVec.ofNat 5 (m.toNat / 2 ^ k % 32))))
      .ok (BitVec.ofNat 32 m.toNat)))

/-- R171's last sentence (marked [derived]): what the encoder makes passes VERIFY. -/
def Obligations.EncodedSymbolsVerify : Prop :=
  ∀ (hrp : List Byte) (data : List Sym), verifyF hrp (data ++ ckSyms hrp data) = true

/-- R175 (marked [derived]), read as R96 says.  With an hrp of more than 90 characters the transaction fails with
E_OVERFLOW (R96), whether the host stops after ENCHRP, which sends nothing and changes nothing, or goes on. -/
def Obligations.EncodeTransactionGivesENCODE : Prop :=
  ∀ (hrp : List Byte) (data : List Sym) (s : State),
    (hrp.length ≤ 90 → ∃ (u : State) (o : List Output), execAll (encodeSeq hrp data) s = .next u ∧
      u.sent = s.sent ++ o ∧ allOk o ∧ readEncode o = some (.ok (encodeF hrp data)) ∧
      lastResponse o = some ⟨.ok, BitVec.ofNat 32 (checksum hrp data).toNat⟩) ∧
    (90 < hrp.length → ∃ (u v w : State) (o o' : List Output), execAll (sbstr hrp) s = .next u ∧ u.chk = s.chk ∧
      exec .enchrp u = .next v ∧ v = u.answers [] .eOverflow 0 ∧
      v.sent = s.sent ++ o ∧ readEncode o = some (.error .eOverflow) ∧
      execAll (encodeSeq hrp data) s = .next w ∧ w.sent = s.sent ++ o' ∧ readEncode o' = some (.error .eOverflow))

/-! ## The decoder (spec/45_decode.md) -/

/-- R180 (and R182 to R185): the eight steps in their order, for every LEN in its range.  The separator is the last
`1`. -/
def Obligations.DecodeMakesTheEightSteps : Prop :=
  decode 0b0110000000000000 = .ok .decode ∧
  ∀ s : State, s.len.toNat ≤ 91 →
    let str := (List.range s.len.toNat).map s.cell
    (s.np = true → exec .decode s = .next (s.answers [] .eCharset 0)) ∧
    (s.np = false → s.low = true ∧ s.upp = true → exec .decode s = .next (s.answers [] .eMixedCase 0)) ∧
    (s.np = false → (s.low && s.upp) = false → s.len = 91 → exec .decode s = .next (s.answers [] .eLength 0)) ∧
    (s.np = false → (s.low && s.upp) = false → s.len ≠ 91 → (∀ k, 1 ≤ k → str[k]? ≠ some 0x31) →
      exec .decode s = .next (s.answers [] .eSeparator 0)) ∧
    (s.np = false → (s.low && s.upp) = false → s.len ≠ 91 →
      ∀ pos, 1 ≤ pos → str[pos]? = some 0x31 → (∀ k, pos < k → str[k]? ≠ some 0x31) →
        let hrp := (str.take pos).map lower
        let tail := (str.drop (pos + 1)).map lower
        (s.len.toNat < pos + 7 → exec .decode s = .next (s.answers [] .eLength 0)) ∧
        (pos + 7 ≤ s.len.toNat → (∃ c ∈ tail, charDec c = none) →
          exec .decode s = .next (s.answers [] .eCharset 0)) ∧
        (pos + 7 ≤ s.len.toNat → ∀ dwc : List Sym, tail.map charDec = dwc.map some →
          let c := polymod (expand hrp ++ dwc.map zext30)
          (c ≠ 1 → exec .decode s = .next ({ s with chk := c }.answers [] .eChecksum 0)) ∧
          (c = 1 → exec .decode s = .next ({ s with chk := 1 }.answers
            (hrp.map (Beat.mk .char) ++
              (dwc.take (s.len.toNat - pos - 7)).map fun (x : Sym) => Beat.mk .sym (x.setWidth 8))
            .ok (BitVec.ofNat 32 ((s.len.toNat - pos - 7) * 256 + pos))))))

/-- R186 (marked [derived]), read as R96 says: for a string of any length, from any state. -/
def Obligations.DecodeTransactionGivesDECODE : Prop :=
  ∀ (str : List Byte) (s : State), ∃ (u : State) (o : List Output), execAll (decstr str) s = .next u ∧
    u.sent = s.sent ++ o ∧
    readDecode o = some ((decodeF str).map fun r => (r.1, r.2.map (fun x => x.setWidth 8)))

/-- R176 (marked [derived]): which encoder outputs decode back. -/
def Obligations.EncodedStringsDecodeBack : Prop :=
  ∀ (hrp : List Byte) (data : List Sym), decodeF (encodeF hrp data) = .ok (hrp, data) ↔
    hrp ≠ [] ∧ (∀ c ∈ hrp, 33 ≤ c.toNat ∧ c.toNat ≤ 126) ∧ (∀ c ∈ hrp, ¬ (0x41 ≤ c.toNat ∧ c.toNat ≤ 0x5A)) ∧
    hrp.length + 7 + data.length ≤ 90

/-! ## Frames (spec/10_state.md R32) -/

/-- R32: the repacker's commands touch ACC, BITS, FROM, TO, PAD, RPE only; RPPUSH and RPEND keep the configuration; no
cell of SB changes. -/
def Obligations.RepackerFrame : Prop :=
  ∀ (i : Instr) (s t : State), repackerCommand i = true → exec i s = .next t →
    t = { s with acc := t.acc, bits := t.bits, fromBits := t.fromBits, toBits := t.toBits, pad := t.pad, rpe := t.rpe,
                 sent := t.sent } ∧
    ((∀ f w p, i ≠ .rpcfg f w p) → t.fromBits = s.fromBits ∧ t.toBits = s.toBits ∧ t.pad = s.pad) ∧
    (∀ a, t.cell a = s.cell a)

/-- R32: the polymod and character commands touch CHK only, PMRD, PMVFY, CXENC and CXDEC nothing; none emits a beat; no
cell of SB changes. -/
def Obligations.PolymodAndCharacterFrame : Prop :=
  ∀ (i : Instr) (s t : State),
    i = .pminit ∨ (∃ x, i = .pmstep x) ∨ i = .pmhrp ∨ i = .pmrd ∨ i = .pmvfy ∨ (∃ x, i = .cxenc x) ∨
      (∃ c, i = .cxdec c) →
    exec i s = .next t →
    t = { s with chk := t.chk, sent := t.sent } ∧ t.out = s.out ∧
    (i = .pmrd ∨ i = .pmvfy ∨ (∃ x, i = .cxenc x) ∨ (∃ c, i = .cxdec c) → t.chk = s.chk) ∧
    (∀ a, t.cell a = s.cell a)

/-- R32, R61: SBCLR and SBPUT touch the buffer's registers only, SRST every register; none emits a beat; only SBPUT
stores, and only to cell LEN while LEN is below 90; it sets flags and clears none. -/
def Obligations.BufferFrame : Prop :=
  (∀ s t : State, exec .sbclr s = .next t →
    t = { s with len := t.len, np := t.np, low := t.low, upp := t.upp, sent := t.sent } ∧ t.out = s.out ∧
    ∀ a, t.cell a = s.cell a) ∧
  (∀ s t : State, exec .srst s = .next t → t.out = s.out ∧ t.inputs = s.inputs ∧ ∀ a, t.cell a = s.cell a) ∧
  (∀ (c : Byte) (s t : State), exec (.sbput c) s = .next t →
    t = { s with len := t.len, np := t.np, low := t.low, upp := t.upp, sb := t.sb, sent := t.sent } ∧ t.out = s.out ∧
    (∀ a, ¬ (a = s.len.toNat ∧ s.len.toNat < 90) → t.cell a = s.cell a) ∧
    (s.np = true → t.np = true) ∧ (s.low = true → t.low = true) ∧ (s.upp = true → t.upp = true))

/-- R32, R68: the encoder's commands and DECODE touch CHK only, and no cell of SB. -/
def Obligations.EncoderAndDecoderFrame : Prop :=
  ∀ (i : Instr) (s t : State), i = .enchrp ∨ (∃ x, i = .encsym x) ∨ i = .encfin ∨ i = .decode →
    exec i s = .next t → t = { s with chk := t.chk, sent := t.sent } ∧ ∀ a, t.cell a = s.cell a

/-- R68: reads of SB have no side effect: running PMHRP, ENCHRP or DECODE twice in a row gives the same response and
the same beats both times. -/
def Obligations.BufferReadersCanBeRepeated : Prop :=
  ∀ (i : Instr) (s t : State), i = .pmhrp ∨ i = .enchrp ∨ i = .decode → exec i s = .next t →
    ∃ (u : State) (o : List Output), exec i t = .next u ∧ t.sent = s.sent ++ o ∧ u.sent = t.sent ++ o ∧
      u = { t with sent := u.sent }

/-- R32's last sentence (marked [derived]): a repacker command and any other but SRST, in either order, leave the same
registers and buffer and give the same outputs each: `oi` is what the repacker command sends, `oj` the other. -/
def Obligations.RepackerCommandsCommuteWithTheOthers : Prop :=
  ∀ (i j : Instr) (s t₁ t₂ : State), repackerCommand i = true → repackerCommand j = false → j ≠ .srst →
    exec i s = .next t₁ → exec j t₁ = .next t₂ →
    ∃ (u₁ u₂ : State) (oi oj : List Output), exec j s = .next u₁ ∧ exec i u₁ = .next u₂ ∧
      t₁.sent = s.sent ++ oi ∧ u₁.sent = s.sent ++ oj ∧ t₂.sent = s.sent ++ oi ++ oj ∧ u₂.sent = s.sent ++ oj ++ oi ∧ u₂ = { t₂ with sent := u₂.sent }

/-! ## The numbers on the ports (spec/60_exceptions.md R200, spec/10_state.md R34) -/

/-- R200, R34, I5, I6: the status codes, with 10 to 15 reserved; the tag codes, with 3 reserved; and a beat's 10 bits,
its tag's code in bits 9:8 and its data in bits 7:0. -/
def Obligations.PortCodes : Prop :=
  (∀ s : Status, statusOfCode (statusCode s) = some s) ∧
  (∀ c : BitVec 4, statusOfCode c = none ↔ 10 ≤ c.toNat) ∧
  (∀ b : Beat, beatOfBits (beatBits b) = some b) ∧
  (∀ v : BitVec 10, beatOfBits v = none ↔ v.extractLsb' 8 2 = 3) ∧
  [Status.ok, .eCharset, .eMixedCase, .eSeparator, .eLength, .eChecksum, .eWidth, .ePadding, .eOverflow,
    .eIllegal].map statusCode = [0, 1, 2, 3, 4, 5, 6, 7, 8, 9] ∧
  [Tag.char, .sym, .rpv].map tagCode = [0, 1, 2] ∧
  (∀ b : Beat, (beatBits b).extractLsb' 8 2 = tagCode b.tag ∧ (beatBits b).extractLsb' 0 8 = b.data)
end

