-- ==== Sys2Proof/Laws/Codec.lean ====
section
/-! SUPPORT. The command words: a word and its two fields, and one inversion lemma for each of the formats. -/

namespace Sys2Proof

theorem opOf_wordOf (op arg : BitVec 8) : opOf (wordOf op arg) = op := by
  ext i hi
  simp only [opOf, wordOf, BitVec.getElem_extractLsb', BitVec.getLsbD_or, BitVec.getLsbD_shiftLeft,
    BitVec.getLsbD_setWidth, BitVec.getLsbD_of_ge arg (8 + i) (by omega), BitVec.getLsbD_eq_getElem (x := op) hi,
    show 8 + i - 8 = i by omega]
  simp [show 8 + i < 16 by omega, show i < 16 by omega]

theorem argOf_wordOf (op arg : BitVec 8) : argOf (wordOf op arg) = arg := by
  ext i hi
  simp [argOf, wordOf, hi]; omega

theorem wordOf_fields (w : CmdWord) : wordOf (opOf w) (argOf w) = w := by
  ext i hi
  by_cases h : i < 8
  · simp [opOf, wordOf, argOf, hi, h]
  · simp [opOf, wordOf, argOf, hi, h, show i - 8 < 8 by omega, show 8 + (i - 8) = i by omega]

/-- The two bytes written side by side are the word. -/
theorem append_eq_wordOf (op arg : BitVec 8) : (op ++ arg : BitVec (8 + 8)) = wordOf op arg := by
  apply BitVec.eq_of_getLsbD_eq
  intro i hi
  have : i < 16 := hi
  rw [BitVec.getLsbD_append]
  by_cases h : i < 8
  · simp [wordOf, h, this]
  · simp [wordOf, h, this, BitVec.getLsbD_of_ge arg i (by omega)]

theorem decode_wordOf (op arg : BitVec 8) : decode (wordOf op arg) = decodeFields op arg := by
  rw [decode, opOf_wordOf, argOf_wordOf]

theorem widthOfField_fieldOfWidth (w : BitVec 4) (h : legalWidth w = true) : widthOfField (fieldOfWidth w) = w := by
  revert w; decide

theorem fieldOfWidth_widthOfField (f : BitVec 3) : fieldOfWidth (widthOfField f) = f := by revert f; decide

theorem legalWidth_widthOfField (f : BitVec 3) : legalWidth (widthOfField f) = true := by revert f; decide

theorem formatN_ok {i j : Instr} {arg : BitVec 8} (h : formatN i arg = .ok j) : j = i ∧ arg = 0 := by
  unfold formatN at h; split at h <;> simp_all

theorem formatS_sym (f : Sym → Instr) (s : Sym) : formatS f (0#3 ++ s) = .ok (f s) := by
  have h1 : (0#3 ++ s).extractLsb' 5 3 = 0#3 := by revert s; decide
  have h2 : (0#3 ++ s).extractLsb' 0 5 = s := by revert s; decide
  simp [formatS, h1, h2]

theorem formatS_ok {f : Sym → Instr} {j : Instr} {arg : BitVec 8} (h : formatS f arg = .ok j) :
    ∃ x : Sym, j = f x ∧ arg = 0#3 ++ x := by
  unfold formatS at h
  split at h
  · rename_i h0
    refine ⟨_, (Except.ok.inj h).symm, ?_⟩
    clear h; revert arg; decide
  · simp at h

theorem formatR_config (f t : BitVec 3) (p : Bool) :
    formatR (0#1 ++ BitVec.ofBool p ++ f ++ t) = .ok (.rpcfg (widthOfField f) (widthOfField t) p) := by
  revert f t p; decide

theorem formatR_ok {j : Instr} {arg : BitVec 8} (h : formatR arg = .ok j) :
    ∃ (f t : BitVec 3) (p : Bool),
      j = .rpcfg (widthOfField f) (widthOfField t) p ∧ arg = 0#1 ++ BitVec.ofBool p ++ f ++ t := by
  unfold formatR at h
  split at h
  · simp at h
  · rename_i h0
    refine ⟨_, _, _, (Except.ok.inj h).symm, ?_⟩
    clear h; revert arg; decide

end Sys2Proof
end

