-- ==== Sys2Proof/Laws/Decoder.lean ====
section
/-! SUPPORT. The separator search of DECODE: where it ends. -/

namespace Sys2Proof.Machine

theorem lastSepFrom_append (str : List Byte) (i : Nat) (pos : Option Nat) (c : Byte) :
    lastSepFrom i pos (str ++ [c]) = if c = sep then some (i + str.length) else lastSepFrom i pos str := by
  induction str generalizing i pos with
  | nil => simp [lastSepFrom]
  | cons d str ih => simp [lastSepFrom, ih, Nat.add_assoc, Nat.add_comm]

/-- The search sees the last character last. -/
theorem lastSep_append (str : List Byte) (c : Byte) :
    lastSep (str ++ [c]) = if c = sep then some str.length else lastSep str := by
  simp [lastSep, lastSepFrom_append]

/-- The search finds nothing exactly when no character is the separator. -/
theorem lastSep_eq_none (str : List Byte) : lastSep str = none ↔ ∀ k : Nat, str[k]? ≠ some sep := by
  induction str using List.reverseRecOn with
  | nil => simp [lastSep, lastSepFrom]
  | append_singleton str c ih =>
    rw [lastSep_append]
    split
    · rename_i h
      simp only [reduceCtorEq, false_iff, not_forall, not_not]
      exact ⟨str.length, by simp [h]⟩
    · rename_i h
      rw [ih]
      refine ⟨fun hk k => ?_, fun hk k => ?_⟩
      · rcases Nat.lt_trichotomy k str.length with hl | hl | hl
        · rw [List.getElem?_append_left hl]; exact hk k
        · subst hl; simpa using h
        · rw [List.getElem?_eq_none (by simp; omega)]; simp
      · by_cases hl : k < str.length
        · have := hk k; rwa [List.getElem?_append_left hl] at this
        · rw [List.getElem?_eq_none (by omega)]; simp

/-- The search finds the last separator (R182). -/
theorem lastSep_eq_some (str : List Byte) (pos : Nat) :
    lastSep str = some pos ↔ str[pos]? = some sep ∧ ∀ k : Nat, pos < k → str[k]? ≠ some sep := by
  induction str using List.reverseRecOn with
  | nil => simp [lastSep, lastSepFrom]
  | append_singleton str c ih =>
    rw [lastSep_append]
    split
    · rename_i h
      simp only [Option.some.injEq]
      constructor
      · rintro rfl
        refine ⟨by simp [h], fun k hk => ?_⟩
        rw [List.getElem?_eq_none (by simp; omega)]; simp
      · rintro ⟨h1, h2⟩
        rcases Nat.lt_trichotomy pos str.length with hl | hl | hl
        · exact absurd (by simp [h]) (h2 _ hl)
        · exact hl.symm
        · rw [List.getElem?_eq_none (by simp; omega)] at h1; simp at h1
    · rename_i h
      rw [ih]
      have key : ∀ k : Nat, (str ++ [c])[k]? = some sep ↔ str[k]? = some sep := fun k => by
        rcases Nat.lt_trichotomy k str.length with hl | hl | hl
        · rw [List.getElem?_append_left hl]
        · subst hl; simpa using h
        · rw [List.getElem?_eq_none (by simp; omega), List.getElem?_eq_none (by omega)]
      simp only [ne_eq, key]

/-- A separator stands inside its string. -/
theorem lastSep_lt {str : List Byte} {pos : Nat} (h : lastSep str = some pos) : pos < str.length := by
  have := ((lastSep_eq_some str pos).mp h).1
  exact (List.getElem?_eq_some_iff.mp this).1

end Sys2Proof.Machine
end

