-- ==== Sys2Proof/Laws/State.lean ====
section
/-! SUPPORT. What each named update of State does to each field: one lemma per field per update, true by
definition, so that no later proof unfolds an update. -/

namespace Sys2Proof.Machine

/-! ### setCell -/

section
variable (s : State) (a : Nat) (c : Byte)

@[simp] theorem State.setCell_chk : (s.setCell a c).chk = s.chk := rfl
@[simp] theorem State.setCell_acc : (s.setCell a c).acc = s.acc := rfl
@[simp] theorem State.setCell_bits : (s.setCell a c).bits = s.bits := rfl
@[simp] theorem State.setCell_fromBits : (s.setCell a c).fromBits = s.fromBits := rfl
@[simp] theorem State.setCell_toBits : (s.setCell a c).toBits = s.toBits := rfl
@[simp] theorem State.setCell_pad : (s.setCell a c).pad = s.pad := rfl
@[simp] theorem State.setCell_rpe : (s.setCell a c).rpe = s.rpe := rfl
@[simp] theorem State.setCell_len : (s.setCell a c).len = s.len := rfl
@[simp] theorem State.setCell_np : (s.setCell a c).np = s.np := rfl
@[simp] theorem State.setCell_low : (s.setCell a c).low = s.low := rfl
@[simp] theorem State.setCell_upp : (s.setCell a c).upp = s.upp := rfl
@[simp] theorem State.setCell_sb : (s.setCell a c).sb = s.sb.write a c := rfl
@[simp] theorem State.setCell_sent : (s.setCell a c).sent = s.sent := rfl
@[simp] theorem State.setCell_inputs : (s.setCell a c).inputs = s.inputs := rfl

end

/-! ### setChk -/

section
variable (s : State) (c : Word30)

@[simp] theorem State.setChk_chk : (s.setChk c).chk = c := rfl
@[simp] theorem State.setChk_acc : (s.setChk c).acc = s.acc := rfl
@[simp] theorem State.setChk_bits : (s.setChk c).bits = s.bits := rfl
@[simp] theorem State.setChk_fromBits : (s.setChk c).fromBits = s.fromBits := rfl
@[simp] theorem State.setChk_toBits : (s.setChk c).toBits = s.toBits := rfl
@[simp] theorem State.setChk_pad : (s.setChk c).pad = s.pad := rfl
@[simp] theorem State.setChk_rpe : (s.setChk c).rpe = s.rpe := rfl
@[simp] theorem State.setChk_len : (s.setChk c).len = s.len := rfl
@[simp] theorem State.setChk_np : (s.setChk c).np = s.np := rfl
@[simp] theorem State.setChk_low : (s.setChk c).low = s.low := rfl
@[simp] theorem State.setChk_upp : (s.setChk c).upp = s.upp := rfl
@[simp] theorem State.setChk_sb : (s.setChk c).sb = s.sb := rfl
@[simp] theorem State.setChk_sent : (s.setChk c).sent = s.sent := rfl
@[simp] theorem State.setChk_inputs : (s.setChk c).inputs = s.inputs := rfl

end

/-! ### setAcc -/

section
variable (s : State) (a : AccWord) (n : BitVec 4)

@[simp] theorem State.setAcc_chk : (s.setAcc a n).chk = s.chk := rfl
@[simp] theorem State.setAcc_acc : (s.setAcc a n).acc = a := rfl
@[simp] theorem State.setAcc_bits : (s.setAcc a n).bits = n := rfl
@[simp] theorem State.setAcc_fromBits : (s.setAcc a n).fromBits = s.fromBits := rfl
@[simp] theorem State.setAcc_toBits : (s.setAcc a n).toBits = s.toBits := rfl
@[simp] theorem State.setAcc_pad : (s.setAcc a n).pad = s.pad := rfl
@[simp] theorem State.setAcc_rpe : (s.setAcc a n).rpe = s.rpe := rfl
@[simp] theorem State.setAcc_len : (s.setAcc a n).len = s.len := rfl
@[simp] theorem State.setAcc_np : (s.setAcc a n).np = s.np := rfl
@[simp] theorem State.setAcc_low : (s.setAcc a n).low = s.low := rfl
@[simp] theorem State.setAcc_upp : (s.setAcc a n).upp = s.upp := rfl
@[simp] theorem State.setAcc_sb : (s.setAcc a n).sb = s.sb := rfl
@[simp] theorem State.setAcc_sent : (s.setAcc a n).sent = s.sent := rfl
@[simp] theorem State.setAcc_inputs : (s.setAcc a n).inputs = s.inputs := rfl

end

/-! ### setRpe -/

section
variable (s : State) (e : Bool)

@[simp] theorem State.setRpe_chk : (s.setRpe e).chk = s.chk := rfl
@[simp] theorem State.setRpe_acc : (s.setRpe e).acc = s.acc := rfl
@[simp] theorem State.setRpe_bits : (s.setRpe e).bits = s.bits := rfl
@[simp] theorem State.setRpe_fromBits : (s.setRpe e).fromBits = s.fromBits := rfl
@[simp] theorem State.setRpe_toBits : (s.setRpe e).toBits = s.toBits := rfl
@[simp] theorem State.setRpe_pad : (s.setRpe e).pad = s.pad := rfl
@[simp] theorem State.setRpe_rpe : (s.setRpe e).rpe = e := rfl
@[simp] theorem State.setRpe_len : (s.setRpe e).len = s.len := rfl
@[simp] theorem State.setRpe_np : (s.setRpe e).np = s.np := rfl
@[simp] theorem State.setRpe_low : (s.setRpe e).low = s.low := rfl
@[simp] theorem State.setRpe_upp : (s.setRpe e).upp = s.upp := rfl
@[simp] theorem State.setRpe_sb : (s.setRpe e).sb = s.sb := rfl
@[simp] theorem State.setRpe_sent : (s.setRpe e).sent = s.sent := rfl
@[simp] theorem State.setRpe_inputs : (s.setRpe e).inputs = s.inputs := rfl

end

/-! ### setConfig -/

section
variable (s : State) (f t : BitVec 4) (p : Bool)

@[simp] theorem State.setConfig_chk : (s.setConfig f t p).chk = s.chk := rfl
@[simp] theorem State.setConfig_acc : (s.setConfig f t p).acc = s.acc := rfl
@[simp] theorem State.setConfig_bits : (s.setConfig f t p).bits = s.bits := rfl
@[simp] theorem State.setConfig_fromBits : (s.setConfig f t p).fromBits = f := rfl
@[simp] theorem State.setConfig_toBits : (s.setConfig f t p).toBits = t := rfl
@[simp] theorem State.setConfig_pad : (s.setConfig f t p).pad = p := rfl
@[simp] theorem State.setConfig_rpe : (s.setConfig f t p).rpe = s.rpe := rfl
@[simp] theorem State.setConfig_len : (s.setConfig f t p).len = s.len := rfl
@[simp] theorem State.setConfig_np : (s.setConfig f t p).np = s.np := rfl
@[simp] theorem State.setConfig_low : (s.setConfig f t p).low = s.low := rfl
@[simp] theorem State.setConfig_upp : (s.setConfig f t p).upp = s.upp := rfl
@[simp] theorem State.setConfig_sb : (s.setConfig f t p).sb = s.sb := rfl
@[simp] theorem State.setConfig_sent : (s.setConfig f t p).sent = s.sent := rfl
@[simp] theorem State.setConfig_inputs : (s.setConfig f t p).inputs = s.inputs := rfl

end

/-! ### setLen -/

section
variable (s : State) (n : BitVec 7)

@[simp] theorem State.setLen_chk : (s.setLen n).chk = s.chk := rfl
@[simp] theorem State.setLen_acc : (s.setLen n).acc = s.acc := rfl
@[simp] theorem State.setLen_bits : (s.setLen n).bits = s.bits := rfl
@[simp] theorem State.setLen_fromBits : (s.setLen n).fromBits = s.fromBits := rfl
@[simp] theorem State.setLen_toBits : (s.setLen n).toBits = s.toBits := rfl
@[simp] theorem State.setLen_pad : (s.setLen n).pad = s.pad := rfl
@[simp] theorem State.setLen_rpe : (s.setLen n).rpe = s.rpe := rfl
@[simp] theorem State.setLen_len : (s.setLen n).len = n := rfl
@[simp] theorem State.setLen_np : (s.setLen n).np = s.np := rfl
@[simp] theorem State.setLen_low : (s.setLen n).low = s.low := rfl
@[simp] theorem State.setLen_upp : (s.setLen n).upp = s.upp := rfl
@[simp] theorem State.setLen_sb : (s.setLen n).sb = s.sb := rfl
@[simp] theorem State.setLen_sent : (s.setLen n).sent = s.sent := rfl
@[simp] theorem State.setLen_inputs : (s.setLen n).inputs = s.inputs := rfl

end

/-! ### setFlags -/

section
variable (s : State) (np low upp : Bool)

@[simp] theorem State.setFlags_chk : (s.setFlags np low upp).chk = s.chk := rfl
@[simp] theorem State.setFlags_acc : (s.setFlags np low upp).acc = s.acc := rfl
@[simp] theorem State.setFlags_bits : (s.setFlags np low upp).bits = s.bits := rfl
@[simp] theorem State.setFlags_fromBits : (s.setFlags np low upp).fromBits = s.fromBits := rfl
@[simp] theorem State.setFlags_toBits : (s.setFlags np low upp).toBits = s.toBits := rfl
@[simp] theorem State.setFlags_pad : (s.setFlags np low upp).pad = s.pad := rfl
@[simp] theorem State.setFlags_rpe : (s.setFlags np low upp).rpe = s.rpe := rfl
@[simp] theorem State.setFlags_len : (s.setFlags np low upp).len = s.len := rfl
@[simp] theorem State.setFlags_np : (s.setFlags np low upp).np = np := rfl
@[simp] theorem State.setFlags_low : (s.setFlags np low upp).low = low := rfl
@[simp] theorem State.setFlags_upp : (s.setFlags np low upp).upp = upp := rfl
@[simp] theorem State.setFlags_sb : (s.setFlags np low upp).sb = s.sb := rfl
@[simp] theorem State.setFlags_sent : (s.setFlags np low upp).sent = s.sent := rfl
@[simp] theorem State.setFlags_inputs : (s.setFlags np low upp).inputs = s.inputs := rfl

end

/-! ### emit -/

section
variable (s : State) (bs : List Beat)

@[simp] theorem State.emit_chk : (s.emit bs).chk = s.chk := rfl
@[simp] theorem State.emit_acc : (s.emit bs).acc = s.acc := rfl
@[simp] theorem State.emit_bits : (s.emit bs).bits = s.bits := rfl
@[simp] theorem State.emit_fromBits : (s.emit bs).fromBits = s.fromBits := rfl
@[simp] theorem State.emit_toBits : (s.emit bs).toBits = s.toBits := rfl
@[simp] theorem State.emit_pad : (s.emit bs).pad = s.pad := rfl
@[simp] theorem State.emit_rpe : (s.emit bs).rpe = s.rpe := rfl
@[simp] theorem State.emit_len : (s.emit bs).len = s.len := rfl
@[simp] theorem State.emit_np : (s.emit bs).np = s.np := rfl
@[simp] theorem State.emit_low : (s.emit bs).low = s.low := rfl
@[simp] theorem State.emit_upp : (s.emit bs).upp = s.upp := rfl
@[simp] theorem State.emit_sb : (s.emit bs).sb = s.sb := rfl
@[simp] theorem State.emit_sent : (s.emit bs).sent = s.sent ++ bs.map Output.beat := rfl
@[simp] theorem State.emit_inputs : (s.emit bs).inputs = s.inputs := rfl

end

/-! ### The updates made of these -/

@[simp] theorem State.clearRepacker_eq (s : State) :
    s.clearRepacker = { s with acc := 0, bits := 0, rpe := false } := rfl

@[simp] theorem State.noteChar_eq (s : State) (c : Byte) :
    s.noteChar c =
      { s with np := s.np || !printable c, low := s.low || isLower c, upp := s.upp || isUpper c } := rfl

@[simp] theorem State.resetRegisters_eq (s : State) :
    s.resetRegisters = { State.reset with sb := s.sb, sent := s.sent, inputs := s.inputs } := rfl

@[simp] theorem State.resetInput_eq (s : State) :
    s.resetInput = { State.reset with sent := s.sent, inputs := s.inputs } := rfl

@[simp] theorem State.offer_inputs (s : State) (w : CmdWord) :
    (s.offer w).inputs = .command w :: s.inputs := rfl

/-! ### The output ports -/

theorem respond_eq (st : Status) (v : Value) (s : State) :
    respond st v s = .next { s with sent := s.sent ++ [.response ⟨st, v⟩] } := rfl

theorem raise_eq (st : Status) (v : Value) (s : State) :
    raise st v s = .next { s with sent := s.sent ++ [.response ⟨st, v⟩] } := rfl

@[simp] theorem respond_next_iff (st : Status) (v : Value) (s t : State) :
    respond st v s = .next t ↔ { s with sent := s.sent ++ [.response ⟨st, v⟩] } = t := by
  simp [respond_eq]

@[simp] theorem raise_next_iff (st : Status) (v : Value) (s t : State) :
    raise st v s = .next t ↔ { s with sent := s.sent ++ [.response ⟨st, v⟩] } = t := by
  simp [raise_eq]

@[simp] theorem filterMap_beat_map (bs : List Beat) : (bs.map Output.beat).filterMap Output.beat? = bs := by
  induction bs with
  | nil => rfl
  | cons b bs ih => simp [Output.beat?, ih]

@[simp] theorem filterMap_response_map (bs : List Beat) : (bs.map Output.beat).filterMap Output.response? = [] := by
  induction bs with
  | nil => rfl
  | cons b bs ih => simp [Output.response?]

end Sys2Proof.Machine
end

