-- ==== Sys2Proof/Laws/Memory.lean ====
section
/-! SUPPORT. The string buffer: reading after writing, and that a write keeps the one form of the memory. -/

namespace Sys2Proof.Machine

/-- Reading any cell after a write: the written cell reads as written, every other as before. -/
theorem Memory.read_write (m : Memory) (a b : Nat) (c : Byte) :
    Memory.read (Memory.write m a c) b = if b = a then some c else Memory.read m b := by
  induction m with
  | nil => simp [Memory.write, Memory.read]
  | cons e m ih =>
    obtain ⟨x, d⟩ := e
    simp only [Memory.write]
    split
    · simp [Memory.read]
    · split
      · rename_i h; subst h
        simp only [Memory.read]; split <;> rfl
      · simp only [Memory.read, ih]
        split <;> split <;> simp_all

theorem Memory.rising_write {m : Memory} {lo a : Nat} (c : Byte) (h : Memory.rising lo m = true) (hlo : lo ≤ a) :
    Memory.rising lo (Memory.write m a c) = true := by
  induction m generalizing lo with
  | nil => simpa [Memory.write, Memory.rising] using hlo
  | cons e m ih =>
    obtain ⟨x, d⟩ := e
    simp only [Memory.rising, Bool.and_eq_true, decide_eq_true_eq] at h
    simp only [Memory.write]
    split
    · simp only [Memory.rising, Bool.and_eq_true, decide_eq_true_eq]
      exact ⟨hlo, by omega, h.2⟩
    · split
      · rename_i hax; subst hax
        simpa [Memory.rising] using h
      · simp only [Memory.rising, Bool.and_eq_true, decide_eq_true_eq]
        exact ⟨h.1, ih h.2 (by omega)⟩

theorem Memory.all_write {m : Memory} {p : Host.Cell → Bool} {a : Nat} {c : Byte}
    (h : m.all p = true) (hc : p (a, c) = true) : (Memory.write m a c).all p = true := by
  induction m with
  | nil => simp [Memory.write, hc]
  | cons e m ih =>
    obtain ⟨x, d⟩ := e
    simp only [List.all_cons, Bool.and_eq_true] at h
    simp only [Memory.write]
    split
    · simp [h, hc]
    · split <;> simp [h, hc, ih h.2]

/-- A write to one of the 90 cells keeps the memory's form. -/
theorem Memory.wf_write {m : Memory} {a : Nat} (c : Byte) (h : Memory.wf m = true) (ha : a < Config.sbCap) :
    Memory.wf (Memory.write m a c) = true := by
  simp only [Memory.wf, Bool.and_eq_true] at h ⊢
  exact ⟨Memory.rising_write c h.1 (Nat.zero_le a), Memory.all_write h.2 (by simpa using ha)⟩

/-- The reset state's memory has the form. -/
theorem Memory.wf_reset : Memory.wf State.reset.sb = true := by decide

/-- A cell after a store: the stored character, or what it held. -/
theorem State.cell_setCell (s : State) (a b : Nat) (c : Byte) :
    (s.setCell a c).cell b = if b = a then c else s.cell b := by
  simp only [State.cell, State.setCell_sb, Memory.read_write]
  split <;> simp

/-- The characters of a prefix of the buffer depend on its cells only. -/
theorem State.cells_congr {s t : State} {n : Nat} (h : ∀ a < n, s.cell a = t.cell a) : s.cells n = t.cells n := by
  simp only [State.cells]
  exact List.map_congr_left fun a ha => h a (List.mem_range.mp ha)

@[simp] theorem State.cells_length (s : State) (n : Nat) : (s.cells n).length = n := by simp [State.cells]

theorem State.cells_succ (s : State) (n : Nat) : s.cells (n + 1) = s.cells n ++ [s.cell n] := by
  simp [State.cells, List.range_succ]

/-- Storing the next character appends it to the string. -/
theorem State.cells_setCell_succ (s : State) (n : Nat) (c : Byte) :
    (s.setCell n c).cells (n + 1) = s.cells n ++ [c] := by
  rw [State.cells_succ, State.cell_setCell, if_pos rfl]
  congr 1
  exact State.cells_congr fun a ha => by rw [State.cell_setCell, if_neg (by omega)]

end Sys2Proof.Machine
end

