-- ==== Sys2Proof/Laws/Exec.lean ====
section
/-! SUPPORT. What each meaning can do, said once: the meanings with one outcome by an equation, the others by an
inversion lemma, so that no later proof unfolds a meaning. -/

namespace Sys2Proof.Machine

/-! ## `answers` -/

section
variable (s : State) (bs : List Beat) (st : Status) (v : Value)
@[simp] theorem State.answers_chk : (s.answers bs st v).chk = s.chk := rfl
@[simp] theorem State.answers_acc : (s.answers bs st v).acc = s.acc := rfl
@[simp] theorem State.answers_bits : (s.answers bs st v).bits = s.bits := rfl
@[simp] theorem State.answers_fromBits : (s.answers bs st v).fromBits = s.fromBits := rfl
@[simp] theorem State.answers_toBits : (s.answers bs st v).toBits = s.toBits := rfl
@[simp] theorem State.answers_pad : (s.answers bs st v).pad = s.pad := rfl
@[simp] theorem State.answers_rpe : (s.answers bs st v).rpe = s.rpe := rfl
@[simp] theorem State.answers_len : (s.answers bs st v).len = s.len := rfl
@[simp] theorem State.answers_np : (s.answers bs st v).np = s.np := rfl
@[simp] theorem State.answers_low : (s.answers bs st v).low = s.low := rfl
@[simp] theorem State.answers_upp : (s.answers bs st v).upp = s.upp := rfl
@[simp] theorem State.answers_sb : (s.answers bs st v).sb = s.sb := rfl
@[simp] theorem State.answers_inputs : (s.answers bs st v).inputs = s.inputs := rfl
@[simp] theorem State.answers_sent :
    (s.answers bs st v).sent = s.sent ++ bs.map Output.beat ++ [.response ⟨st, v⟩] := rfl
@[simp] theorem State.answers_cell (a : Nat) : (s.answers bs st v).cell a = s.cell a := rfl
@[simp] theorem State.answers_string : (s.answers bs st v).string = s.string := rfl
end

theorem respond_answers (st : Status) (v : Value) (s : State) : respond st v s = .next (s.answers [] st v) := by
  simp [respond_eq, State.answers]

theorem respond_emit_answers (st : Status) (v : Value) (s : State) (bs : List Beat) :
    respond st v (s.emit bs) = .next (s.answers bs st v) := rfl

theorem raise_answers (st : Status) (v : Value) (s : State) : raise st v s = .next (s.answers [] st v) :=
  respond_answers st v s

theorem withCells_of_le {s : State} {k : List Byte → Host.Outcome State Fault Refusal} (h : s.len.toNat ≤ 90) :
    s.withCells k = k (s.cells s.len.toNat) := if_pos h

theorem withCells_of_gt {s : State} {k : List Byte → Host.Outcome State Fault Refusal} (h : 90 < s.len.toNat) :
    s.withCells k = .fault .noSuchCell := if_neg (Nat.not_le.mpr h)

/-- Within the buffer's capacity the string held is all the characters given. -/
theorem State.string_of_le {s : State} (h : s.len.toNat ≤ 90) : s.string = s.cells s.len.toNat := by
  rw [State.string, show Config.sbCap = 90 from rfl, Nat.min_eq_left h]

/-- A state whose buffer is `s`'s with one character stored holds that character after `s`'s string. -/
theorem State.string_store {s t : State} {c : Byte} (h : s.len.toNat < 90) (hl : t.len = s.len + 1)
    (hs : t.sb = s.sb.write s.len.toNat c) : t.string = s.string ++ [c] := by
  have h1 : (s.len + 1).toNat = s.len.toNat + 1 := by rw [BitVec.toNat_add]; simp; omega
  rw [State.string_of_le (by rw [hl, h1]; omega), State.string_of_le (by omega), hl, h1, ← State.cells_setCell_succ]
  exact State.cells_congr fun a _ => by simp [State.cell, hs]

/-- A state with the same length and buffer holds the same string. -/
theorem State.string_congr {s t : State} (hl : t.len = s.len) (hs : t.sb = s.sb) : t.string = s.string := by
  rw [State.string, State.string, hl]
  exact State.cells_congr fun a _ => by simp [State.cell, hs]

/-- Once 90 characters are held, marking the overflow leaves the string. -/
theorem State.string_overflow {s t : State} (h : 90 ≤ s.len.toNat) (hl : t.len = 91) (hs : t.sb = s.sb) :
    t.string = s.string := by
  rw [State.string, State.string, hl, show Config.sbCap = 90 from rfl, Nat.min_eq_right (by decide),
    Nat.min_eq_right h]
  exact State.cells_congr fun a _ => by simp [State.cell, hs]

/-! ## The meanings with one outcome -/

theorem execSbclr_eq (s : State) :
    execSbclr s = .next ({ s with len := 0, np := false, low := false, upp := false }.answers [] .ok 0) :=
  respond_answers ..

theorem execSrst_eq (s : State) :
    execSrst s =
      .next ({ State.reset with sb := s.sb, sent := s.sent, inputs := s.inputs }.answers [] .ok 0) :=
  respond_answers ..

theorem execRpcfg_eq (f t : BitVec 4) (p : Bool) (s : State) :
    execRpcfg f t p s =
      .next ({ s with fromBits := f, toBits := t, pad := p, acc := 0, bits := 0, rpe := false }.answers [] .ok 0) :=
  respond_answers ..

theorem execPminit_eq (s : State) : execPminit s = .next ({ s with chk := 1 }.answers [] .ok 0) :=
  respond_answers ..

theorem execPmstep_eq (x : Sym) (s : State) :
    execPmstep x s = .next ({ s with chk := polystep s.chk (zext30 x) }.answers [] .ok 0) := respond_answers ..

theorem execPmrd_eq (s : State) : execPmrd s = .next (s.answers [] .ok (word30Value s.chk)) := respond_answers ..

theorem execPmvfy_eq (s : State) : execPmvfy s = .next (s.answers [] .ok (if s.chk = 1 then 1 else 0)) :=
  respond_answers ..

theorem execCxenc_eq (x : Sym) (s : State) : execCxenc x s = .next (s.answers [] .ok (byteValue (charEnc x))) :=
  respond_answers ..

theorem execEncsym_eq (x : Sym) (s : State) :
    execEncsym x s = .next ({ s with chk := polystep s.chk (zext30 x) }.answers [⟨.char, charEnc x⟩] .ok
      (byteValue (charEnc x))) := rfl

theorem execEncfin_eq (s : State) :
    execEncfin s = .next ({ s with chk := polyfeed s.chk (List.replicate 6 0) }.answers
      (beats .char ((sixSyms (polyfeed s.chk (List.replicate 6 0) ^^^ 1)).map charEnc)) .ok
      (word30Value (polyfeed s.chk (List.replicate 6 0) ^^^ 1))) := rfl

/-! ## The others -/

/-- SBPUT stores at cell LEN while LEN is below 90, and else drops the character. -/
theorem execSbput_eq (c : Byte) (s : State) :
    execSbput c s = .next (
      if s.len.toNat < 90 then
        { s.noteChar c with len := s.len + 1, sb := s.sb.write s.len.toNat c }.answers [] .ok (lenValue (s.len + 1))
      else { s.noteChar c with len := 91 }.answers [] .eOverflow 91) := by
  by_cases h : s.len.toNat < 90
  · rw [if_pos h]
    exact (if_pos h).trans (respond_answers ..)
  · rw [if_neg h]
    exact (if_neg h).trans (raise_answers ..)

theorem execCxdec_eq (c : Byte) (s : State) :
    execCxdec c s = .next (match charDec (lower c) with
      | none => s.answers [] .eCharset 0
      | some i => s.answers [] .ok (symValue i)) := by
  unfold execCxdec
  cases charDec (lower c) with
  | none => exact raise_answers ..
  | some i => exact respond_answers ..

theorem execPmhrp_next {s t : State} (h : execPmhrp s = .next t) :
    (s.len.toNat = 91 ∧ t = s.answers [] .eOverflow 0) ∨
    (s.len.toNat ≤ 90 ∧ t = { s with chk := polymod (expand s.string) }.answers [] .ok (lenValue s.len)) := by
  unfold execPmhrp at h
  split at h
  · rename_i hl
    exact .inl ⟨hl, (by rw [raise_answers] at h; injection h with h; exact h.symm)⟩
  · by_cases hl : s.len.toNat ≤ 90
    · rw [withCells_of_le hl, respond_answers] at h
      injection h with h
      exact .inr ⟨hl, by rw [State.string_of_le hl, ← h]; rfl⟩
    · rw [withCells_of_gt (by omega)] at h; cases h

theorem execEnchrp_next {s t : State} (h : execEnchrp s = .next t) :
    (s.len.toNat = 91 ∧ t = s.answers [] .eOverflow 0) ∨
    (s.len.toNat ≤ 90 ∧ t = { s with chk := polymod (expand s.string) }.answers (beats .char (s.string ++ [sep])) .ok
      (lenValue s.len)) := by
  unfold execEnchrp at h
  split at h
  · rename_i hl
    exact .inl ⟨hl, (by rw [raise_answers] at h; injection h with h; exact h.symm)⟩
  · by_cases hl : s.len.toNat ≤ 90
    · rw [withCells_of_le hl, respond_emit_answers] at h
      injection h with h
      exact .inr ⟨hl, by rw [State.string_of_le hl, ← h]; rfl⟩
    · rw [withCells_of_gt (by omega)] at h; cases h

theorem execRppush_next {c : Byte} {s t : State} (h : execRppush c s = .next t) :
    (s.rpe = true ∧ t = s.answers [] .eWidth 0) ∨
    (s.rpe = false ∧ 2 ^ s.fromBits.toNat ≤ c.toNat ∧ t = { s with rpe := true }.answers [] .eWidth 0) ∨
    (s.rpe = false ∧ c.toNat < 2 ^ s.fromBits.toNat ∧ s.toBits ≠ 0 ∧
      ∃ (acc : Nat) (r : List Nat × Nat), acc = shiftIn 15 s.acc.toNat s.fromBits.toNat c.toNat ∧
        r = slices acc s.toBits.toNat (s.bits.toNat + s.fromBits.toNat) (s.bits.toNat + s.fromBits.toNat) ∧
        t = { s with acc := BitVec.ofNat 15 acc, bits := BitVec.ofNat 4 r.2 }.answers
          (beats .rpv (r.1.map (BitVec.ofNat 8))) .ok (natValue r.1.length)) := by
  unfold execRppush at h
  split at h
  · rename_i hr
    rw [raise_answers] at h; injection h with h
    exact .inl ⟨hr, h.symm⟩
  · rename_i hr
    rw [Bool.not_eq_true] at hr
    split at h
    · rename_i hw
      rw [raise_answers] at h; injection h with h
      exact .inr (.inl ⟨hr, by simpa [tooWide] using hw, h.symm⟩)
    · rename_i hw
      split at h
      · cases h
      · rename_i ht
        injection h with h
        exact .inr (.inr ⟨hr, by simpa [tooWide] using hw, ht, _, _, rfl, rfl, h.symm⟩)

/-- The state RPEND leaves, but for its outputs. -/
theorem execRpend_next {s t : State} (h : execRpend s = .next t) :
    (s.rpe = true ∧ t = s.clearRepacker.answers [] .eWidth 0) ∨
    (s.rpe = false ∧ s.bits.toNat ≤ s.toBits.toNat ∧
      ((s.pad = true ∧ 0 < s.bits.toNat ∧ t = s.clearRepacker.answers
          [⟨.rpv, BitVec.ofNat 8 (leftAligned s.acc.toNat s.bits.toNat s.toBits.toNat)⟩] .ok 1) ∨
       (s.pad = true ∧ s.bits.toNat = 0 ∧ t = s.clearRepacker.answers [] .ok 0) ∨
       (s.pad = false ∧ (s.fromBits.toNat ≤ s.bits.toNat ∨
          leftAligned s.acc.toNat s.bits.toNat s.toBits.toNat ≠ 0) ∧ t = s.clearRepacker.answers [] .ePadding 0) ∨
       (s.pad = false ∧ s.bits.toNat < s.fromBits.toNat ∧
          leftAligned s.acc.toNat s.bits.toNat s.toBits.toNat = 0 ∧ t = s.clearRepacker.answers [] .ok 0))) := by
  unfold execRpend at h
  split at h
  · rename_i hr
    rw [raise_answers] at h; injection h with h
    exact .inl ⟨hr, h.symm⟩
  · rename_i hr
    rw [Bool.not_eq_true] at hr
    refine .inr ⟨hr, ?_⟩
    split at h
    · cases h
    · rename_i hb
      refine ⟨Nat.not_lt.mp hb, ?_⟩
      simp only [raise_answers] at h
      split at h
      · rename_i hp
        split at h
        · rename_i h0
          rw [respond_emit_answers] at h; injection h with h
          exact .inl ⟨hp, h0, h.symm⟩
        · rename_i h0
          rw [respond_answers] at h; injection h with h
          exact .inr (.inl ⟨hp, by omega, h.symm⟩)
      · rename_i hp
        rw [Bool.not_eq_true] at hp
        split at h
        · rename_i h0
          injection h with h
          exact .inr (.inr (.inl ⟨hp, .inl h0, h.symm⟩))
        · rename_i h0
          split at h
          · rename_i h1
            injection h with h
            exact .inr (.inr (.inl ⟨hp, .inr h1, h.symm⟩))
          · rename_i h1
            rw [respond_answers] at h; injection h with h
            exact .inr (.inr (.inr ⟨hp, by omega, by simpa using h1, h.symm⟩))

/-- The hrp and the symbols a string splits into at a separator, lower-cased (steps 3 and 6 of R180). -/
def splitHrp (str : List Byte) (pos : Nat) : List Byte := (str.take pos).map lower

/-- See `splitHrp`. -/
def splitTail (str : List Byte) (pos : Nat) : List Byte := (str.drop (pos + 1)).map lower

theorem execDecode_next {s t : State} (h : execDecode s = .next t) :
    (s.np = true ∧ t = s.answers [] .eCharset 0) ∨
    (s.np = false ∧ s.mixedCase = true ∧ t = s.answers [] .eMixedCase 0) ∨
    (s.np = false ∧ s.mixedCase = false ∧
      ((s.len.toNat = 91 ∧ t = s.answers [] .eLength 0) ∨
       (s.len.toNat ≤ 90 ∧
        (((∀ pos, lastSep s.string = some pos → pos < 1) ∧ t = s.answers [] .eSeparator 0) ∨
         ∃ pos, lastSep s.string = some pos ∧ 1 ≤ pos ∧
          ((s.string.length < pos + 7 ∧ t = s.answers [] .eLength 0) ∨
           (pos + 7 ≤ s.string.length ∧
            (((splitTail s.string pos).any (fun c => (charDec c).isNone) = true ∧ t = s.answers [] .eCharset 0) ∨
             ((splitTail s.string pos).any (fun c => (charDec c).isNone) = false ∧
              ∃ (dwc : List Sym) (c : Word30), dwc = (splitTail s.string pos).filterMap charDec ∧
               c = polymod (expand (splitHrp s.string pos) ++ dwc.map zext30) ∧
               ((c ≠ 1 ∧ t = { s with chk := c }.answers [] .eChecksum 0) ∨
                (c = 1 ∧ t = { s with chk := c }.answers
                  (beats .char (splitHrp s.string pos) ++
                    beats .sym ((dwc.take (s.string.length - pos - 7)).map symByte)) .ok
                  (decodeValue pos (s.string.length - pos - 7)))))))))))) := by
  unfold execDecode at h
  split at h
  · rename_i h1
    rw [raise_answers] at h; injection h with h
    exact .inl ⟨h1, h.symm⟩
  · rename_i h1
    rw [Bool.not_eq_true] at h1
    refine .inr ?_
    split at h
    · rename_i h2
      rw [raise_answers] at h; injection h with h
      exact .inl ⟨h1, h2, h.symm⟩
    · rename_i h2
      rw [Bool.not_eq_true] at h2
      refine .inr ⟨h1, h2, ?_⟩
      split at h
      · rename_i h3
        rw [raise_answers] at h; injection h with h
        exact .inl ⟨h3, h.symm⟩
      · by_cases h3 : s.len.toNat ≤ 90
        · refine .inr ⟨h3, ?_⟩
          rw [withCells_of_le h3, ← State.string_of_le h3] at h
          split at h
          · rename_i h4
            rw [raise_answers] at h; injection h with h
            exact .inl ⟨by simp [h4], h.symm⟩
          · rename_i pos h4
            split at h
            · rename_i h5
              rw [raise_answers] at h; injection h with h
              exact .inl ⟨by simpa [h4] using h5, h.symm⟩
            · rename_i h5
              refine .inr ⟨pos, h4, by omega, ?_⟩
              split at h
              · rename_i h6
                rw [raise_answers] at h; injection h with h
                exact .inl ⟨h6, h.symm⟩
              · rename_i h6
                refine .inr ⟨Nat.not_lt.mp h6, ?_⟩
                split at h
                · rename_i h7
                  rw [raise_answers] at h; injection h with h
                  exact .inl ⟨h7, h.symm⟩
                · rename_i h7
                  refine .inr ⟨by simpa [splitTail] using h7, _, _, rfl, rfl, ?_⟩
                  simp only at h
                  split at h
                  · rename_i h8
                    rw [raise_answers] at h; injection h with h
                    exact .inl ⟨h8, h.symm⟩
                  · rename_i h8
                    rw [respond_emit_answers] at h; injection h with h
                    exact .inr ⟨not_not.mp h8, h.symm⟩
        · rw [withCells_of_gt (by omega)] at h; cases h

end Sys2Proof.Machine
end

