-- ==== Sys2Proof/Laws/PerInstr.lean ====
section
/-! SUPPORT. The law of each command's word: its opcode, its operand byte, and that the byte keeps the format's
must-be-zero bits at 0 (spec/30_encoding.md R80, R81, R84). -/

namespace Sys2Proof.Laws.Encoding

/-- The operand bytes a format admits (R81). -/
def admits : Format → BitVec 8 → Bool
  | .N, arg => arg == 0
  | .S, arg => arg.extractLsb' 5 3 == 0
  | .C, _ => true
  | .R, arg => !arg.getLsbD 7

/-- The word of `i` has its opcode and an operand byte its format admits. -/
def Statement (i : Instr) : Prop :=
  opOf (encode i) = opcodeOf i ∧ argOf (encode i) = operandByteOf i ∧ admits (formatOf i) (operandByteOf i) = true

theorem of_admits (i : Instr) (h : admits (formatOf i) (operandByteOf i) = true) : Statement i :=
  ⟨opOf_wordOf _ _, argOf_wordOf _ _, h⟩

theorem admits_symbol (x : Sym) : admits .S (0#3 ++ x) = true := by revert x; decide

theorem admits_config (f t : BitVec 4) (p : Bool) : admits .R (configByte f t p) = true := by revert f t p; decide

theorem srst : Statement .srst := of_admits _ rfl
theorem sbclr : Statement .sbclr := of_admits _ rfl
theorem sbput (c : Byte) : Statement (.sbput c) := of_admits _ rfl
theorem rpcfg (f t : BitVec 4) (p : Bool) : Statement (.rpcfg f t p) := of_admits _ (admits_config f t p)
theorem rppush (c : Byte) : Statement (.rppush c) := of_admits _ rfl
theorem rpend : Statement .rpend := of_admits _ rfl
theorem pminit : Statement .pminit := of_admits _ rfl
theorem pmstep (s : Sym) : Statement (.pmstep s) := of_admits _ (admits_symbol s)
theorem pmhrp : Statement .pmhrp := of_admits _ rfl
theorem pmrd : Statement .pmrd := of_admits _ rfl
theorem pmvfy : Statement .pmvfy := of_admits _ rfl
theorem cxenc (s : Sym) : Statement (.cxenc s) := of_admits _ (admits_symbol s)
theorem cxdec (c : Byte) : Statement (.cxdec c) := of_admits _ rfl
theorem enchrp : Statement .enchrp := of_admits _ rfl
theorem encsym (s : Sym) : Statement (.encsym s) := of_admits _ (admits_symbol s)
theorem encfin : Statement .encfin := of_admits _ rfl
theorem decode : Statement .decode := of_admits _ rfl

end Sys2Proof.Laws.Encoding
end

