-- ==== Sys2Proof/Laws/Readers.lean ====
section
/-! SUPPORT. PMHRP, ENCHRP and DECODE, which read the whole string: what they depend on and what they change. -/

namespace Sys2Proof.Machine

/-- The effect of a command that reads the whole string is a function of LEN, the flags and the string, and changes CHK
only. -/
theorem exec_reader {i : Instr} (hi : i = .pmhrp ∨ i = .enchrp ∨ i = .decode) {s : State} (hl : s.len.toNat ≤ 91) :
    ∃ (oc : Option Word30) (bs : List Beat) (st : Status) (v : Value), ∀ s' : State, s'.np = s.np → s'.low = s.low →
      s'.upp = s.upp → s'.len = s.len → s'.string = s.string →
      exec i s' = .next ({ s' with chk := oc.getD s'.chk }.answers bs st v) := by
  by_cases h91 : s.len.toNat = 91
  · rcases hi with rfl | rfl | rfl
    · exact ⟨none, _, _, _, fun s' _ _ _ h _ => (if_pos (by rw [h]; exact h91)).trans (raise_answers ..)⟩
    · exact ⟨none, _, _, _, fun s' _ _ _ h _ => (if_pos (by rw [h]; exact h91)).trans (raise_answers ..)⟩
    · by_cases h1 : s.np = true
      · exact ⟨none, _, _, _, fun s' hn _ _ _ _ => (if_pos (by rw [hn]; exact h1)).trans (raise_answers ..)⟩
      by_cases h2 : (s.low && s.upp) = true
      · exact ⟨none, _, _, _, fun s' hn hlo hu _ _ => (if_neg (by rw [hn]; exact h1)).trans
          ((if_pos (by rw [State.mixedCase, hlo, hu]; exact h2)).trans (raise_answers ..))⟩
      exact ⟨none, _, _, _, fun s' hn hlo hu h _ => (if_neg (by rw [hn]; exact h1)).trans
          ((if_neg (by rw [State.mixedCase, hlo, hu]; exact h2)).trans
          ((if_pos (by rw [h]; exact h91)).trans (raise_answers ..)))⟩
  · have h90 : s.len.toNat ≤ 90 := by omega
    have key : ∀ (s' : State) k, s'.len = s.len → s'.string = s.string → s'.withCells k = k s.string := by
      intro s' k h1 h2
      rw [withCells_of_le (by rw [h1]; exact h90), ← State.string_of_le (by rw [h1]; exact h90), h2]
    rcases hi with rfl | rfl | rfl
    · exact ⟨some _, _, _, _, fun s' _ _ _ h hs => (if_neg (by rw [h]; exact h91)).trans
        ((key s' _ h hs).trans ((respond_answers ..).trans (congrArg (fun n => Host.Outcome.next (State.answers _ _ _ (lenValue n))) h)))⟩
    · exact ⟨some _, _, _, _, fun s' _ _ _ h hs => (if_neg (by rw [h]; exact h91)).trans
        ((key s' _ h hs).trans ((respond_emit_answers ..).trans (congrArg (fun n => Host.Outcome.next (State.answers _ _ _ (lenValue n))) h)))⟩
    · by_cases h1 : s.np = true
      · exact ⟨none, _, _, _, fun s' hn _ _ _ _ => (if_pos (by rw [hn]; exact h1)).trans (raise_answers ..)⟩
      by_cases h2 : (s.low && s.upp) = true
      · exact ⟨none, _, _, _, fun s' hn hlo hu _ _ => (if_neg (by rw [hn]; exact h1)).trans
          ((if_pos (by rw [State.mixedCase, hlo, hu]; exact h2)).trans (raise_answers ..))⟩
      have e : ∀ (s' : State), s'.np = s.np → s'.low = s.low →
          s'.upp = s.upp → s'.len = s.len → s'.string = s.string →
          exec .decode s' = (match lastSep s.string with
            | none => raise .eSeparator 0 s'
            | some pos =>
              if pos < 1 then raise .eSeparator 0 s'
              else if s.string.length < pos + 1 + ckLen then raise .eLength 0 s'
              else if ((s.string.drop (pos + 1)).map lower).any (fun c => (charDec c).isNone) then raise .eCharset 0 s'
              else
                let hrp := (s.string.take pos).map lower
                let dwc := ((s.string.drop (pos + 1)).map lower).filterMap charDec
                let c := polymod (expand hrp ++ dwc.map zext30)
                let t := s'.setChk c
                if c ≠ 1 then raise .eChecksum 0 t
                else
                  let d := s.string.length - pos - (1 + ckLen)
                  respond .ok (decodeValue pos d)
                    (t.emit (beats .char hrp ++ beats .sym ((dwc.take d).map symByte)))) := by
        intro s' hn hlo hu hl hs
        exact (if_neg (by rw [hn]; exact h1)).trans ((if_neg (by rw [State.mixedCase, hlo, hu]; exact h2)).trans
          ((if_neg (by rw [hl]; exact h91)).trans (key s' _ hl hs)))
      cases hp : lastSep s.string with
      | none =>
        exact ⟨none, _, _, _, fun s' hn hlo hu hl hs => by rw [e s' hn hlo hu hl hs, hp]; exact raise_answers ..⟩
      | some pos =>
        by_cases h3 : pos < 1
        · exact ⟨none, _, _, _, fun s' hn hlo hu hl hs => by
            rw [e s' hn hlo hu hl hs, hp]; exact (if_pos h3).trans (raise_answers ..)⟩
        by_cases h4 : s.string.length < pos + 1 + ckLen
        · exact ⟨none, _, _, _, fun s' hn hlo hu hl hs => by
            rw [e s' hn hlo hu hl hs, hp]; exact (if_neg h3).trans ((if_pos h4).trans (raise_answers ..))⟩
        by_cases h5 : ((s.string.drop (pos + 1)).map lower).any (fun c => (charDec c).isNone) = true
        · exact ⟨none, _, _, _, fun s' hn hlo hu hl hs => by
            rw [e s' hn hlo hu hl hs, hp]
            exact (if_neg h3).trans ((if_neg h4).trans ((if_pos h5).trans (raise_answers ..)))⟩
        by_cases h6 : polymod (expand ((s.string.take pos).map lower) ++
            (((s.string.drop (pos + 1)).map lower).filterMap charDec).map zext30) ≠ 1
        · exact ⟨some _, _, _, _, fun s' hn hlo hu hl hs => by
            rw [e s' hn hlo hu hl hs, hp]
            exact (if_neg h3).trans ((if_neg h4).trans ((if_neg h5).trans ((if_pos h6).trans (raise_answers ..))))⟩
        · exact ⟨some _, _, _, _, fun s' hn hlo hu hl hs => by
            rw [e s' hn hlo hu hl hs, hp]
            exact (if_neg h3).trans ((if_neg h4).trans ((if_neg h5).trans ((if_neg h6).trans
              (respond_emit_answers ..))))⟩

end Sys2Proof.Machine
end

