-- ==== Sys2Proof/Laws/Repacker.lean ====
section
/-! SUPPORT. The repacker's loop in closed form, and which bits of the accumulator it reads. -/

namespace Sys2Proof.Machine

/-- The loop's outputs are the `bits / toW` groups of `toW` bits from the top of the valid bits down, and `bits % toW`
bits are left. -/
theorem slices_eq (acc : Nat) {toW : Nat} (hto : 1 ≤ toW) (fuel bits : Nat) (hf : bits ≤ fuel) :
    slices acc toW fuel bits =
      ((List.range (bits / toW)).map fun k => topBits acc (bits - (k + 1) * toW) toW, bits % toW) := by
  induction fuel generalizing bits with
  | zero =>
    obtain rfl : bits = 0 := by omega
    simp [slices]
  | succ fuel ih =>
    simp only [slices]
    split
    · rename_i h
      have hd : bits / toW = (bits - toW) / toW + 1 := by
        rw [← Nat.add_div_right _ (by omega : 0 < toW), Nat.sub_add_cancel h]
      rw [ih _ (by omega), hd, List.range_succ_eq_map, List.map_cons, List.map_map, ← Nat.mod_eq_sub_mod h]
      simp only [Function.comp_def, Nat.zero_add, Nat.one_mul, Prod.mk.injEq, List.cons.injEq, true_and, and_true]
      refine List.map_congr_left fun k _ => ?_
      rw [Nat.sub_sub, show toW + (k + 1) * toW = (k.succ + 1) * toW by simp [Nat.succ_mul]; omega]
    · rename_i h
      rw [Nat.div_eq_of_lt (by omega), Nat.mod_eq_of_lt (by omega)]
      rfl

theorem topBits_lt (acc bits toW : Nat) : topBits acc bits toW < 2 ^ toW := Nat.mod_lt _ (Nat.two_pow_pos _)

theorem leftAligned_lt (acc bits toW : Nat) : leftAligned acc bits toW < 2 ^ toW := Nat.mod_lt _ (Nat.two_pow_pos _)

/-- A group of bits below position `n` depends on the accumulator's low `n` bits only (R117). -/
theorem topBits_mod (acc : Nat) {bits toW n : Nat} (h : bits + toW ≤ n) :
    topBits (acc % 2 ^ n) bits toW = topBits acc bits toW := by
  apply Nat.eq_of_testBit_eq
  intro i
  simp only [topBits, Nat.testBit_mod_two_pow, Nat.testBit_shiftRight]
  by_cases hi : i < toW
  · simp [hi, show bits + i < n by omega]
  · simp [hi]

/-- The left-aligned leftover depends on the valid bits only (R117). -/
theorem leftAligned_mod (acc : Nat) {bits toW : Nat} (h : bits ≤ toW) :
    leftAligned (acc % 2 ^ bits) bits toW = leftAligned acc bits toW := by
  apply Nat.eq_of_testBit_eq
  intro i
  simp only [leftAligned, Nat.testBit_mod_two_pow, Nat.testBit_shiftLeft]
  by_cases hi : i < toW
  · by_cases hb : toW - bits ≤ i
    · simp [hi, hb, show i - (toW - bits) < bits by omega]
    · simp [hb]
  · simp [hi]

/-- Shifting a value in: the old low bits moved up, the value below them. -/
theorem shiftIn_mod {width acc fromW v n : Nat} (hv : v < 2 ^ fromW) (hn : n + fromW ≤ width) :
    shiftIn width acc fromW v % 2 ^ (n + fromW) = acc % 2 ^ n * 2 ^ fromW + v := by
  have h1 : (acc <<< fromW ||| v) = acc <<< fromW + v := (Nat.shiftLeft_add_eq_or_of_lt hv acc).symm
  rw [shiftIn, Nat.mod_mod_of_dvd _ (Nat.pow_dvd_pow 2 hn), h1, Nat.shiftLeft_eq, Nat.pow_add, Nat.add_mod,
    Nat.mul_mod_mul_right, Nat.mod_eq_of_lt (a := v) (lt_of_lt_of_le hv (Nat.le_mul_of_pos_left _ (Nat.two_pow_pos n)))]
  apply Nat.mod_eq_of_lt
  have h2 : acc % 2 ^ n + 1 ≤ 2 ^ n := Nat.mod_lt _ (Nat.two_pow_pos n)
  calc acc % 2 ^ n * 2 ^ fromW + v < acc % 2 ^ n * 2 ^ fromW + 2 ^ fromW := by omega
    _ = (acc % 2 ^ n + 1) * 2 ^ fromW := by ring
    _ ≤ 2 ^ n * 2 ^ fromW := Nat.mul_le_mul_right _ h2

end Sys2Proof.Machine
end

