-- ==== Sys2Proof/Laws/Step.lean ====
section
/-! SUPPORT. What a command can never touch, what one step can do, and how a run of the machine unfolds. -/

namespace Sys2Proof.Machine

/-- An outcome whose next state has other pending inputs. -/
def withInputs (x : List Input) : Host.Outcome State Fault Refusal → Host.Outcome State Fault Refusal
  | .next t => .next { t with inputs := x }
  | .fault f => .fault f
  | .refused r => .refused r

theorem withInputs_ite {p : Prop} [Decidable p] (a b : Host.Outcome State Fault Refusal) (x : List Input) :
    withInputs x (if p then a else b) = if p then withInputs x a else withInputs x b := by split <;> rfl

/-- A command neither reads nor changes the pending inputs. -/
theorem exec_withInputs (i : Instr) (s : State) (x : List Input) :
    exec i { s with inputs := x } = withInputs x (exec i s) := by
  have hc : ∀ n, ({ s with inputs := x } : State).cells n = s.cells n := fun _ => rfl
  cases i with
  | sbput c => simp only [exec, execSbput_eq, withInputs]; congr 1; split <;> rfl
  | cxdec c => simp only [exec, execCxdec_eq, withInputs]; cases charDec (lower c) <;> rfl
  | pmhrp => simp only [exec, execPmhrp, State.withCells, withInputs_ite]; rfl
  | enchrp => simp only [exec, execEnchrp, State.withCells, withInputs_ite]; rfl
  | decode =>
    simp only [exec, execDecode, State.withCells, withInputs_ite, hc]
    cases lastSep (s.cells s.len.toNat) <;> simp only [withInputs_ite] <;> rfl
  | rppush c => simp only [exec, execRppush, withInputs_ite]; rfl
  | rpend => simp only [exec, execRpend, withInputs_ite]; rfl
  | _ => rfl

/-- A word that is taken is a word of a well-formed command. -/
theorem decode_wellFormed {w : CmdWord} {i : Instr} (h : decode w = .ok i) : WellFormed i = true := by
  unfold decode decodeFields at h
  split at h
  all_goals (try (obtain ⟨rfl, -⟩ := formatN_ok h; rfl))
  all_goals (try (obtain ⟨x, rfl, -⟩ := formatS_ok h; rfl))
  all_goals (try (obtain ⟨f, t, p, rfl, -⟩ := formatR_ok h))
  all_goals (try (obtain rfl := Except.ok.inj h))
  case h_18 => cases h
  case h_4 => simp [WellFormed, legalWidth_widthOfField]
  all_goals rfl

/-- Everything one step can do. -/
theorem step_cases {s t : State} (h : step s = .next t) :
    (s.inputs = [] ∧ t = s) ∨
    (∃ rest, s.inputs = .reset :: rest ∧ t = { State.reset with sent := s.sent, inputs := rest }) ∨
    (∃ w rest, s.inputs = .command w :: rest ∧
      ((∃ i, decode w = .ok i ∧ WellFormed i = true ∧ exec i { s with inputs := rest } = .next t) ∨
       (∃ e, decode w = .error e ∧ t = ({ s with inputs := rest } : State).answers [] .eIllegal 0))) := by
  unfold step State.takeInput at h
  cases hi : s.inputs with
  | nil => simp only [hi] at h; injection h with h; exact .inl ⟨rfl, h.symm⟩
  | cons i rest =>
    simp only [hi] at h
    cases i with
    | reset => injection h with h; exact .inr (.inl ⟨rest, rfl, h.symm⟩)
    | command w =>
      refine .inr (.inr ⟨w, rest, rfl, ?_⟩)
      cases hd : decode w with
      | ok i => exact .inl ⟨i, rfl, decode_wellFormed hd, by simpa [hd] using h⟩
      | error e =>
        simp only [hd, illegalWord, raise_answers] at h
        injection h with h
        exact .inr ⟨e, rfl, h.symm⟩

/-- A step with a command word on the port that decodes. -/
theorem step_command {s : State} {w : CmdWord} {rest : List Input} {i : Instr} (h : s.inputs = .command w :: rest)
    (hd : decode w = .ok i) : step s = exec i { s with inputs := rest } := by
  simp [step, State.takeInput, h, hd]

/-- A step with an illegal word on the port. -/
theorem step_illegal {s : State} {w : CmdWord} {rest : List Input} {e : Illegal} (h : s.inputs = .command w :: rest)
    (hd : decode w = .error e) : step s = .next (({ s with inputs := rest } : State).answers [] .eIllegal 0) := by
  simp [step, State.takeInput, h, hd, illegalWord, raise_answers]

/-- A command that ends gives some beats and then one response, after all that was sent before, and leaves the pending
inputs alone. -/
theorem exec_answers {i : Instr} {s t : State} (h : exec i s = .next t) :
    ∃ (u : State) (bs : List Beat) (st : Status) (v : Value), t = u.answers bs st v ∧ u.sent = s.sent ∧
      u.inputs = s.inputs := by
  cases i with
  | sbput c =>
    simp only [exec, execSbput_eq] at h; injection h with h; subst h
    split <;> exact ⟨_, _, _, _, rfl, rfl, rfl⟩
  | cxdec c =>
    simp only [exec, execCxdec_eq] at h; injection h with h; subst h
    split <;> exact ⟨_, _, _, _, rfl, rfl, rfl⟩
  | pmhrp => obtain ⟨-, rfl⟩ | ⟨-, rfl⟩ := execPmhrp_next h <;> exact ⟨_, _, _, _, rfl, rfl, rfl⟩
  | enchrp => obtain ⟨-, rfl⟩ | ⟨-, rfl⟩ := execEnchrp_next h <;> exact ⟨_, _, _, _, rfl, rfl, rfl⟩
  | rppush c =>
    obtain ⟨-, rfl⟩ | ⟨-, -, rfl⟩ | ⟨-, -, -, _, _, -, -, rfl⟩ := execRppush_next h <;>
      exact ⟨_, _, _, _, rfl, rfl, rfl⟩
  | rpend =>
    obtain ⟨-, rfl⟩ | ⟨-, -, ⟨-, -, rfl⟩ | ⟨-, -, rfl⟩ | ⟨-, -, rfl⟩ | ⟨-, -, -, rfl⟩⟩ := execRpend_next h <;>
      exact ⟨_, _, _, _, rfl, rfl, rfl⟩
  | decode =>
    obtain ⟨-, rfl⟩ | ⟨-, -, rfl⟩ | ⟨-, -, ⟨-, rfl⟩ | ⟨-, ⟨-, rfl⟩ | ⟨_, -, -, ⟨-, rfl⟩ |
      ⟨-, ⟨-, rfl⟩ | ⟨-, _, _, -, -, ⟨-, rfl⟩ | ⟨-, rfl⟩⟩⟩⟩⟩⟩ := execDecode_next h <;>
      exact ⟨_, _, _, _, rfl, rfl, rfl⟩
  | srst => injection (execSrst_eq ..).symm.trans h with h; exact ⟨_, _, _, _, h.symm, rfl, rfl⟩
  | sbclr => injection (execSbclr_eq ..).symm.trans h with h; exact ⟨_, _, _, _, h.symm, rfl, rfl⟩
  | rpcfg _ _ _ => injection (execRpcfg_eq ..).symm.trans h with h; exact ⟨_, _, _, _, h.symm, rfl, rfl⟩
  | pminit => injection (execPminit_eq ..).symm.trans h with h; exact ⟨_, _, _, _, h.symm, rfl, rfl⟩
  | pmstep _ => injection (execPmstep_eq ..).symm.trans h with h; exact ⟨_, _, _, _, h.symm, rfl, rfl⟩
  | pmrd => injection (execPmrd_eq ..).symm.trans h with h; exact ⟨_, _, _, _, h.symm, rfl, rfl⟩
  | pmvfy => injection (execPmvfy_eq ..).symm.trans h with h; exact ⟨_, _, _, _, h.symm, rfl, rfl⟩
  | cxenc _ => injection (execCxenc_eq ..).symm.trans h with h; exact ⟨_, _, _, _, h.symm, rfl, rfl⟩
  | encsym _ => injection (execEncsym_eq ..).symm.trans h with h; exact ⟨_, _, _, _, h.symm, rfl, rfl⟩
  | encfin => injection (execEncfin_eq ..).symm.trans h with h; exact ⟨_, _, _, _, h.symm, rfl, rfl⟩

/-! ## A run of the machine -/

theorem run_next (M : Host.Core) (k : Nat) (s t : M.State) (h : M.step s = .next t) :
    M.run (k + 1) s = M.run k t := by simp [Host.Core.run, h]

theorem run_fault (M : Host.Core) (k : Nat) (s : M.State) (r : M.Fault) (h : M.step s = .fault r) :
    M.run (k + 1) s = .fault r := by simp [Host.Core.run, h]

theorem run_refused (M : Host.Core) (k : Nat) (s : M.State) (r : M.Refusal) (h : M.step s = .refused r) :
    M.run (k + 1) s = .refused r := by simp [Host.Core.run, h]

/-! ## Sequences of commands -/

/-- A sequence whose first command ends goes on from the state it left. -/
theorem execAll_cons {i : Instr} {is : List Instr} {s t : State} (h : exec i s = .next t) :
    execAll (i :: is) s = execAll is t := by simp [execAll, h]

/-- One sequence after another. -/
theorem execAll_append {is js : List Instr} {s t : State} (h : execAll is s = .next t) :
    execAll (is ++ js) s = execAll js t := by
  induction is generalizing s with
  | nil => injection h with h; subst h; rfl
  | cons i is ih =>
    cases hi : exec i s with
    | next u => rw [execAll_cons hi] at h; rw [List.cons_append, execAll_cons hi, ih h]
    | fault f => simp [execAll, hi] at h
    | refused f => simp [execAll, hi] at h

end Sys2Proof.Machine
end

