-- ==== Sys2Proof/Laws/Transactions.lean ====
section
/-! SUPPORT. What the readers of a transaction's result say of what the block sent (spec/30_encoding.md R96). -/

namespace Sys2Proof.Machine

theorem dataOf_append (tag : Tag) (o o' : List Output) : dataOf tag (o ++ o') = dataOf tag o ++ dataOf tag o' := by
  simp [dataOf]

@[simp] theorem dataOf_response (tag : Tag) (r : Response) : dataOf tag [.response r] = [] := rfl

theorem lastResponse_concat (o : List Output) (r : Response) : lastResponse (o ++ [.response r]) = some r := by
  simp [lastResponse, Output.response?]

theorem firstFailure_append (o o' : List Output) :
    firstFailure (o ++ o') = (firstFailure o).or (firstFailure o') := by
  simp [firstFailure, List.findSome?_append]

theorem firstFailure_eq_none {o : List Output} : firstFailure o = none ↔ allOk o := by
  simp [firstFailure, allOk]

/-- A failure before the rest of a transaction is the failure of the whole. -/
theorem firstFailure_append_of_some {o : List Output} {status : Status} (h : firstFailure o = some status)
    (o' : List Output) : firstFailure (o ++ o') = some status := by simp [firstFailure_append, h]

theorem lastResponse_isSome_of_firstFailure {o : List Output} {status : Status} (h : firstFailure o = some status) :
    ∃ r, lastResponse o = some r := by
  cases hr : o.filterMap Output.response? with
  | nil => simp [firstFailure, hr] at h
  | cons r rs => exact ⟨(r :: rs).getLast (by simp), by rw [lastResponse, hr, List.getLast?_eq_some_getLast]⟩

/-- With every response OK the result of an ENCODE transaction is its CHAR data. -/
theorem readEncode_of_allOk {o : List Output} {r : Response} (h : allOk o) (hr : lastResponse o = some r) :
    readEncode o = some (.ok (dataOf .char o)) := by
  simp only [readEncode, hr, firstFailure_eq_none.mpr h]

/-- With a failed response the ENCODE transaction fails with the first one's status. -/
theorem readEncode_of_failure {o : List Output} {status : Status} (h : firstFailure o = some status) :
    readEncode o = some (.error status) := by
  obtain ⟨r, hr⟩ := lastResponse_isSome_of_firstFailure h
  simp only [readEncode, hr, h]

end Sys2Proof.Machine
end

