-- ==== Sys2Proof/Tests/Slice0.lean ====
section
/-! SUPPORT. The model's own tests: ill-formed commands, words written out from the encodings, one or two worked
examples for each command (expected values from the command rules' examples and spec/95_test_vectors.md), and a
witness for each statement that has hypotheses. -/

namespace Sys2Proof.Tests

open Sys2Proof Sys2Proof.Machine

/-- Does an ENCODE transaction fail with this status? -/
def failsWith (status : Status) : Option (Except Status (List Byte)) → Bool
  | some (.error e) => e == status
  | some (.ok _) => false
  | none => false

/-- Does an ENCODE transaction give this string? -/
def gives (str : List Byte) : Option (Except Status (List Byte)) → Bool
  | some (.ok d) => d == str
  | some (.error _) => false
  | none => false

/-! ## Helpers -/

/-- The codes of a text's characters. -/
def bytes (str : String) : List Byte := str.toList.map fun c => BitVec.ofNat 8 c.toNat

/-- The reset state with a string stored and LEN, LOW and UPP as given. -/
def loaded (str : String) (len : BitVec 7) (low upp : Bool) : State :=
  { State.reset with sb := (List.range str.length).zip (bytes str), len := len, low := low, upp := upp }

/-- The next state, or the reset state for an outcome that is none. -/
def after (o : Host.Outcome State Fault Refusal) : State :=
  match o with
  | .next t => t
  | .fault _ => State.reset
  | .refused _ => State.reset

/-- Whether an outcome is a next state. -/
def goesOn (o : Host.Outcome State Fault Refusal) : Bool :=
  match o with
  | .next _ => true
  | .fault _ => false
  | .refused _ => false

/-- Whether an outcome is this fault. -/
def faultsWith (f : Fault) (o : Host.Outcome State Fault Refusal) : Bool :=
  match o with
  | .next _ => false
  | .fault g => g == f
  | .refused _ => false

/-- Whether a word is illegal for this reason. -/
def illegalFor (e : Illegal) (w : CmdWord) : Bool :=
  match decode w with
  | .ok _ => false
  | .error e' => e' == e

/-- Whether a word is the command. -/
def isWordOf (i : Instr) (w : CmdWord) : Bool :=
  match decode w with
  | .ok j => j == i
  | .error _ => false

/-- A response alone, as what was sent. -/
def answered (status : Status) (value : Value) : List Output := [.response ⟨status, value⟩]

/-- What CHAR beats and then a response look like, as what was sent. -/
def spells (str : String) (status : Status) (value : Value) : List Output :=
  (bytes str).map (fun c => .beat ⟨.char, c⟩) ++ answered status value

/-! ## Ill-formed commands (R88, R93; I12) -/

theorem test_wellFormed_refuses_from_zero : WellFormed (.rpcfg 0 5 true) = false := by decide
theorem test_wellFormed_refuses_from_nine : WellFormed (.rpcfg 9 5 true) = false := by decide
theorem test_wellFormed_refuses_to_zero : WellFormed (.rpcfg 8 0 false) = false := by decide
theorem test_wellFormed_refuses_to_nine : WellFormed (.rpcfg 8 9 false) = false := by decide
theorem test_wellFormed_takes_the_ends : WellFormed (.rpcfg 1 8 true) = true ∧ WellFormed (.rpcfg 8 1 false) = true := by
  decide

theorem test_assembler_refuses_out_of_range :
    assemble "SBPUT" [.number 256] = none ∧ assemble "PMSTEP" [.number 32] = none ∧
    assemble "RPCFG" [.number 0, .number 5, .number 1] = none ∧
    assemble "RPCFG" [.number 8, .number 9, .number 1] = none ∧
    assemble "RPCFG" [.number 8, .number 5, .number 2] = none ∧ assemble "DECODE" [.number 0] = none ∧
    assemble "NOP" [] = none := by decide

/-- The examples of R93. -/
theorem test_assembler :
    (assemble "SBPUT" [.quoted 'a']).map encode = some 0x1161 ∧
    (assemble "RPCFG" [.number 8, .number 5, .number 1]).map encode = some 0x207C := by decide

/-! ## Words, written out from the word patterns of R84 -/

theorem test_decode_system : isWordOf .srst 0b0000000100000000 = true := by decide

theorem test_decode_buffer :
    isWordOf .sbclr 0b0001000000000000 = true ∧ isWordOf (.sbput 0x41) 0b0001000101000001 = true := by decide

theorem test_decode_repacker :
    isWordOf (.rpcfg 8 5 true) 0b0010000001111100 = true ∧ isWordOf (.rpcfg 5 8 false) 0b0010000000100111 = true ∧
    isWordOf (.rpcfg 1 1 false) 0b0010000000000000 = true ∧ isWordOf (.rppush 0xFF) 0b0010000111111111 = true ∧
    isWordOf .rpend 0b0010001000000000 = true := by decide

theorem test_decode_polymod :
    isWordOf .pminit 0b0011000000000000 = true ∧ isWordOf (.pmstep 3) 0b0011000100000011 = true ∧
    isWordOf .pmhrp 0b0011001000000000 = true ∧ isWordOf .pmrd 0b0011001100000000 = true ∧
    isWordOf .pmvfy 0b0011010000000000 = true := by decide

theorem test_decode_character :
    isWordOf (.cxenc 29) 0b0100000000011101 = true ∧ isWordOf (.cxdec 0x6C) 0b0100000101101100 = true := by decide

theorem test_decode_encoder :
    isWordOf .enchrp 0b0101000000000000 = true ∧ isWordOf (.encsym 31) 0b0101000100011111 = true ∧
    isWordOf .encfin 0b0101001000000000 = true := by decide

theorem test_decode_decoder : isWordOf .decode 0b0110000000000000 = true := by decide

/-- V55: the unassigned opcodes beside the assigned ones. -/
theorem test_illegal_opcodes :
    ([0x0000, 0xFFFF, 0x0200, 0x1200, 0x2300, 0x3500, 0x4200, 0x5300, 0x6100, 0x7000] : List CmdWord).all
      (illegalFor .unassignedOpcode) = true := by decide

/-- V56. -/
theorem test_illegal_operands :
    ([0x0101, 0x1001, 0x2201, 0x3080, 0x32FF, 0x3301, 0x3410, 0x5001, 0x5220, 0x6001] : List CmdWord).all
      (illegalFor .operandNotZero) = true := by decide

/-- V57 and V58. -/
theorem test_illegal_fields :
    ([0x3120, 0x31E0, 0x31FF, 0x4020, 0x5180] : List CmdWord).all (illegalFor .notASymbol) = true ∧
    ([0x2080, 0x20FC] : List CmdWord).all (illegalFor .configBitSeven) = true := by decide

/-- The answer to an illegal word (R89). -/
theorem test_illegal_answer :
    after (step (State.reset.withFetchWord 16 0x2080)) = { State.reset with sent := answered .eIllegal 0 } := by decide

/-! ## The commands -/

theorem test_srst :
    after (exec .srst { State.reset with chk := 5, acc := 9, bits := 3, fromBits := 5, toBits := 8, pad := false,
                                         rpe := true, len := 91, np := true, low := true, upp := true }) =
      { State.reset with sent := answered .ok 0 } := by decide

/-- The example of R161. -/
theorem test_sbclr :
    after (exec .sbclr { State.reset with len := 91, np := true, low := true }) =
      { State.reset with sent := answered .ok 0 } := by decide

/-- The example of R162. -/
theorem test_sbput :
    after (exec (.sbput 0x41) State.reset) =
      { State.reset with sb := [(0, 0x41)], len := 1, upp := true, sent := answered .ok 1 } := by decide

/-- R162: the 91st character is dropped and its flag kept. -/
theorem test_sbput_overflow :
    after (exec (.sbput 0x80) { State.reset with len := 90 }) =
      { State.reset with len := 91, np := true, sent := answered .eOverflow 91 } := by decide

/-- The example of R113. -/
theorem test_rpcfg :
    after (exec (.rpcfg 8 5 true) { State.reset with fromBits := 5, toBits := 8, pad := false, acc := 7, bits := 3,
                                                     rpe := true }) =
      { State.reset with sent := answered .ok 0 } := by decide

/-- The example of R114. -/
theorem test_rppush :
    after (exec (.rppush 0xFF) State.reset) =
      { State.reset with acc := 0x00FF, bits := 3, sent := .beat ⟨.rpv, 0x1F⟩ :: answered .ok 1 } := by decide

/-- P4 step 3. -/
theorem test_rppush_width :
    after (exec (.rppush 32) { State.reset with fromBits := 5, toBits := 8, pad := false, acc := 0x1F, bits := 5 }) =
      { State.reset with fromBits := 5, toBits := 8, pad := false, acc := 0x1F, bits := 5, rpe := true,
                         sent := answered .eWidth 0 } := by decide

/-- The example of R115. -/
theorem test_rpend_pads :
    after (exec .rpend { State.reset with acc := 0x00FF, bits := 3 }) =
      { State.reset with sent := .beat ⟨.rpv, 0x1C⟩ :: answered .ok 1 } := by decide

/-- R115, strict mode: a whole value left over. -/
theorem test_rpend_strict :
    after (exec .rpend { State.reset with fromBits := 5, toBits := 8, pad := false, acc := 0, bits := 5 }) =
      { State.reset with fromBits := 5, toBits := 8, pad := false, sent := answered .ePadding 0 } := by decide

/-- The example of R134. -/
theorem test_pminit :
    after (exec .pminit { State.reset with chk := 0x15CCFE9E }) = { State.reset with sent := answered .ok 0 } := by decide

/-- The examples of R135. -/
theorem test_pmstep :
    (after (exec (.pmstep 3) State.reset)).chk = 0x23 ∧
    (after (exec (.pmstep 5) { State.reset with chk := 0x02000001 })).chk = 0x3B6A5797 ∧
    (after (exec (.pmstep 31) { State.reset with chk := 0x3FFFFFFF })).chk = 0x2B326EB4 := by decide

/-- The example of R136. -/
theorem test_pmhrp :
    after (exec .pmhrp (loaded "a" 1 true false)) =
      { loaded "a" 1 true false with chk := 0x8C01, sent := answered .ok 1 } := by decide

/-- R136: nothing is done with a cut-off hrp. -/
theorem test_pmhrp_overflow :
    after (exec .pmhrp { State.reset with len := 91, chk := 7 }) =
      { State.reset with len := 91, chk := 7, sent := answered .eOverflow 0 } := by decide

/-- The example of R137. -/
theorem test_pmrd : (after (exec .pmrd { State.reset with chk := 0x8C01 })).sent = answered .ok 0x8C01 := by decide

/-- The examples of R138. -/
theorem test_pmvfy :
    (after (exec .pmvfy State.reset)).sent = answered .ok 1 ∧
    (after (exec .pmvfy { State.reset with chk := 0x8C01 })).sent = answered .ok 0 := by decide

/-- The example of R153, and both ends of the alphabet. -/
theorem test_cxenc :
    (after (exec (.cxenc 29) State.reset)).sent = answered .ok 0x61 ∧
    (after (exec (.cxenc 0) State.reset)).sent = answered .ok 0x71 ∧
    (after (exec (.cxenc 31) State.reset)).sent = answered .ok 0x6C := by decide

/-- The examples of R154. -/
theorem test_cxdec :
    (after (exec (.cxdec 0x6C) State.reset)).sent = answered .ok 31 ∧
    (after (exec (.cxdec 0x4C) State.reset)).sent = answered .ok 31 ∧
    (after (exec (.cxdec 0x31) State.reset)).sent = answered .eCharset 0 ∧
    (after (exec (.cxdec 0xFF) State.reset)).sent = answered .eCharset 0 := by decide

/-- R150: the table is the alphabet. -/
theorem test_alphabet : alpha = bytes "qpzry9x8gf2tvdw0s3jn54khce6mua7l" := by decide

/-- The example of R172. -/
theorem test_enchrp :
    after (exec .enchrp (loaded "a" 1 true false)) =
      { loaded "a" 1 true false with chk := 0x8C01, sent := spells "a1" .ok 1 } := by decide

/-- R172: the empty hrp. -/
theorem test_enchrp_empty :
    after (exec .enchrp State.reset) = { State.reset with chk := 0x20, sent := spells "1" .ok 0 } := by decide

/-- The example of R173. -/
theorem test_encsym :
    after (exec (.encsym 0) { State.reset with chk := 0x8C01 }) =
      { State.reset with chk := 0x00118020, sent := spells "q" .ok 0x71 } := by decide

/-- The example of R174. -/
theorem test_encfin :
    after (exec .encfin { State.reset with chk := 0x8C01 }) =
      { State.reset with chk := 0x15CCFE9E, sent := spells "2uel5l" .ok 0x15CCFE9F } := by decide

/-- The example of R180. -/
theorem test_decode :
    after (exec .decode (loaded "A12UEL5L" 8 false true)) =
      { loaded "A12UEL5L" 8 false true with sent := spells "a" .ok 1 } := by decide

/-- V37. -/
theorem test_decode_checksum :
    after (exec .decode (loaded "a12uel5m" 8 true false)) =
      { loaded "a12uel5m" 8 true false with chk := 5, sent := answered .eChecksum 0 } := by decide

/-- R141 (b): each constant is the one before with every symbol doubled in the field of `x^5 + x^3 + 1`. -/
theorem test_gen_doubling :
    let double : Sym → Sym := fun a => if a.getLsbD 4 then (a <<< 1) ^^^ 0x09 else a <<< 1
    ([0, 1, 2, 3].all fun i => (sixSyms (gen.getD i 0)).map double == sixSyms (gen.getD (i + 1) 0)) = true ∧
    sixSyms (gen.getD 0 0) = [29, 22, 20, 21, 29, 18] := by decide

/-- V3 and V4: the repacker's function. -/
theorem test_repack :
    (repack [255] 8 5 true).toOption = some [31, 28] ∧ (repack [31, 28] 5 8 false).toOption = some [255] ∧
    (repack [31, 31, 31, 31, 31, 31, 31] 5 8 false).toOption = none := by decide

/-- R96: an ENCODE transaction whose SBPUT and ENCHRP overflowed fails, whatever was sent after; else its string. -/
theorem test_readEncode :
    failsWith .eOverflow (readEncode (answered .ok 90 ++ answered .eOverflow 91 ++ answered .eOverflow 0 ++
      spells "q" .ok 0x71 ++ spells "2uel5l" .ok 0x15CCFE9F)) = true ∧
    gives (bytes "a12uel5l") (readEncode (spells "a1" .ok 1 ++ spells "2uel5l" .ok 0x15CCFE9F)) = true ∧
    (readEncode []).isNone = true := by decide

/-! ## Witnesses: concrete states and operands that meet the hypotheses of each statement -/

/-- A state with a command word, the reset input and an illegal word waiting. -/
def waiting : State := { State.reset with inputs := [.command 0x1141, .reset, .command 0x0000] }

theorem witness_DecodeOfEncodeIsTheCommand :
    WellFormed (.rpcfg 1 8 true) = true ∧ WellFormed (.sbput 0xFF) = true := by decide

theorem witness_EncodeOfDecodeIsTheWord :
    isWordOf (.rpcfg 8 8 true) 0x207F = true ∧ isWordOf (.pmstep 31) 0x311F = true := by decide

/-- One word for each way to be illegal, waiting on the port. -/
theorem witness_IllegalWordsAreRefused :
    illegalFor .unassignedOpcode 0x02FF = true ∧ illegalFor .operandNotZero 0x0101 = true ∧
    illegalFor .notASymbol 0x3120 = true ∧ illegalFor .configBitSeven 0x2080 = true ∧
    ({ waiting with inputs := [.command 0x2080] } : State).inputs = .command 0x2080 :: [] := by decide

/-- RPCFG; the ends of a byte's and a symbol's range; a quoted character. -/
theorem witness_AssemblerMakesTheWellFormedCommands :
    assemble "RPCFG" [.number 8, .number 5, .number 1] = some (.rpcfg 8 5 true) ∧ WellFormed (.rpcfg 8 5 true) = true ∧
    assemble "RPPUSH" [.number 255] = some (.rppush 255) ∧ assemble "RPPUSH" [.number 256] = none ∧
    assemble "ENCSYM" [.number 31] = some (.encsym 31) ∧ assemble "ENCSYM" [.number 32] = none ∧
    assemble "CXDEC" [.quoted 'q'] = some (.cxdec 0x71) := by decide

theorem witness_StepRunsTheDecodedCommand :
    waiting.inputs = .command 0x1141 :: [.reset, .command 0x0000] ∧ isWordOf (.sbput 0x41) 0x1141 = true ∧
    step waiting = exec (.sbput 0x41) { waiting with inputs := [.reset, .command 0x0000] } := ⟨rfl, by decide, rfl⟩

theorem witness_WaitingAndTheResetInput :
    State.reset.inputs = [] ∧ ({ waiting with inputs := [.reset] } : State).inputs = .reset :: [] := by decide

theorem witness_CommandsTakeEffectInOrder :
    (∀ i ∈ ([.sbclr, .sbput 0x41] : List Instr), WellFormed i = true) ∧
    ({ waiting with inputs := [.command 0x1000, .command 0x1141, .reset] } : State).inputs =
      ([.sbclr, .sbput 0x41] : List Instr).map (fun i => Input.command (encode i)) ++ [.reset] := by decide

theorem witness_ResetValues :
    ({ waiting with inputs := [.reset] } : State).inputs = .reset :: [] ∧ goesOn (exec .srst waiting) = true ∧
    (∀ i ∈ ([.decode] : List Instr), WellFormed i = true) := by decide

theorem waiting_regs : waiting.RegsLegal := ⟨by decide, by decide, by decide, by decide, by decide⟩

theorem waiting_inv : waiting.Inv := ⟨waiting_regs, by decide⟩

theorem witness_EveryStepKeepsTheStateLegal : waiting.Inv ∧ goesOn (step waiting) = true := ⟨waiting_inv, by decide⟩

theorem witness_EveryStepKeepsTheStringFacts :
    waiting.Inv ∧ waiting.StringWritten ∧ waiting.FlagsTell ∧ goesOn (step waiting) = true := by
  refine ⟨waiting_inv, fun a ha => ?_, ⟨?_, ?_, ?_⟩, by decide⟩
  · exact absurd ha (Nat.not_lt_zero a)
  all_goals exact ⟨by decide, by decide⟩

theorem witness_NoLegalStateStops : waiting.Inv ∧ waiting.RegsLegal := ⟨waiting_inv, waiting_regs⟩

/-- A legal word and an illegal one. -/
theorem witness_EveryCommandAnswersOnceAfterItsBeats :
    waiting.inputs = .command 0x1141 :: [.reset, .command 0x0000] ∧ goesOn (step waiting) = true ∧
    goesOn (step { waiting with inputs := [.command 0x0000] }) = true := by decide

set_option maxRecDepth 8000 in
/-- A beat of each tag. -/
theorem witness_BeatsComeFromTheirCommandsInRange :
    Output.beat ⟨.char, 0x71⟩ ∈ (after (exec (.encsym 0) State.reset)).sent.drop State.reset.sent.length ∧
    Output.beat ⟨.rpv, 31⟩ ∈ (after (exec (.rppush 0xFF) State.reset)).sent.drop State.reset.sent.length ∧
    Output.beat ⟨.sym, 0⟩ ∈ (after (exec .decode (loaded "bc1qq282vpvceh" 14 true false))).sent := by decide

/-- A failure of each command that can fail, with its response last. -/
theorem witness_FailedCommandsChangeOnlyWhatR205Says :
    (after (exec (.sbput 0x41) { State.reset with len := 90 })).sent = [] ++ [] ++ answered .eOverflow 91 ∧
    (after (exec .pmhrp { State.reset with len := 91 })).sent = [] ++ [] ++ answered .eOverflow 0 ∧
    (after (exec .enchrp { State.reset with len := 91 })).sent = [] ++ [] ++ answered .eOverflow 0 ∧
    (after (exec (.cxdec 0x31) State.reset)).sent = [] ++ [] ++ answered .eCharset 0 ∧
    (after (exec (.rppush 32) { State.reset with fromBits := 5 })).sent = [] ++ [] ++ answered .eWidth 0 ∧
    (after (exec .rpend { State.reset with rpe := true })).sent = [] ++ [] ++ answered .eWidth 0 ∧
    (after (exec .decode State.reset)).sent = [] ++ [] ++ answered .eSeparator 0 := by decide

/-- Each of the three faults, at the edge: LEN 92 and TO 0 are outside R20's ranges, BITS 6 with TO 5 outside R38's. -/
theorem witness_FaultsAreRaisedExactlyOutsideTheRanges :
    faultsWith .noSuchCell (exec .pmhrp { State.reset with len := 92 }) = true ∧
    faultsWith .noSuchCell (exec .enchrp { State.reset with len := 92 }) = true ∧
    faultsWith .noSuchCell (exec .decode { State.reset with len := 92 }) = true ∧
    faultsWith .zeroWidth (exec (.rppush 255) { State.reset with toBits := 0 }) = true ∧
    faultsWith .negativeShift (exec .rpend { State.reset with bits := 6 }) = true := by decide

/-- States that differ in stale bits of ACC, in cells past the string and in what was sent. -/
theorem witness_AlikeStatesAnswerAlike :
    waiting.RegsLegal ∧ waiting.Alike { waiting with acc := 0x7FFF, sb := [(3, 9)], sent := answered .ok 0 } ∧
    goesOn (step waiting) = true :=
  ⟨waiting_regs, ⟨rfl, by decide, rfl, rfl, rfl, rfl, rfl, rfl, rfl, rfl, rfl, rfl, rfl⟩, by decide⟩

theorem witness_SrstActsAsReset : ∀ i ∈ ([.decode, .rppush 3] : List Instr), WellFormed i = true := by decide

/-- Both sides of the capacity. -/
theorem witness_SbputAppendsOrOverflows :
    ({ State.reset with len := 89 } : State).len.toNat < 90 ∧ 90 ≤ ({ State.reset with len := 90 } : State).len.toNat := by
  decide

/-- A pending error; the least value out of range; the greatest in range; the widths with eight values, and BITS at its
greatest. -/
theorem witness_RppushSendsTheTopBits :
    ({ State.reset with rpe := true } : State).rpe = true ∧
    (let s : State := { State.reset with fromBits := 5 }
     s.rpe = false ∧ 2 ^ s.fromBits.toNat ≤ (32 : Byte).toNat ∧ (31 : Byte).toNat < 2 ^ s.fromBits.toNat ∧
       s.toBits ≠ 0) ∧
    (let s : State := { State.reset with toBits := 1 }
     1 ≤ s.fromBits.toNat ∧ s.fromBits.toNat ≤ 8 ∧ s.bits.toNat < s.toBits.toNat ∧
       (s.bits.toNat + s.fromBits.toNat) / s.toBits.toNat = 8) ∧
    ({ State.reset with toBits := 8, bits := 7 } : State).bits.toNat < 8 := by decide

/-- Each ending, with BITS at 0, at FROM - 1, at FROM and with a set bit left. -/
theorem witness_RpendChecksOrPadsTheLeftover :
    ({ State.reset with rpe := true } : State).rpe = true ∧
    (State.reset.rpe = false ∧ State.reset.bits.toNat ≤ State.reset.toBits.toNat ∧ State.reset.pad = true ∧
      State.reset.bits = 0) ∧
    (({ State.reset with bits := 4 } : State).bits.toNat ≤ State.reset.toBits.toNat ∧
      ({ State.reset with bits := 4 } : State).bits ≠ 0) ∧
    (let s : State := { State.reset with pad := false, fromBits := 3, bits := 3 }
     s.pad = false ∧ s.bits.toNat ≤ s.toBits.toNat ∧ s.fromBits.toNat ≤ s.bits.toNat) ∧
    (let s : State := { State.reset with pad := false, fromBits := 3, bits := 2, acc := 1 }
     s.bits.toNat < s.fromBits.toNat ∧ s.acc.toNat * 2 ^ (s.toBits.toNat - s.bits.toNat) % 2 ^ s.toBits.toNat ≠ 0) ∧
    (let s : State := { State.reset with pad := false, fromBits := 3, bits := 2, acc := 4 }
     s.bits.toNat < s.fromBits.toNat ∧ s.acc.toNat * 2 ^ (s.toBits.toNat - s.bits.toNat) % 2 ^ s.toBits.toNat = 0) := by
  decide

/-- The greatest widths at the least accumulator width, and the least. -/
theorem witness_RepackCutsTheBitString :
    (1 ≤ 8 ∧ 8 ≤ 8 ∧ 8 + 8 - 1 ≤ 15 ∧ ∀ v ∈ [0, 255], v < 2 ^ 8) ∧ (1 + 1 - 1 ≤ 1 ∧ ∀ v ∈ [0, 1], v < 2 ^ 1) := by decide

theorem witness_RepackRejectsWideValuesAndStaysInRange :
    (∃ v ∈ [3, 32], 2 ^ 5 ≤ v) ∧ (repack [31, 28] 5 8 false).toOption = some [255] := by decide

theorem witness_RepackRoundTrip : ∀ v ∈ [0, 255], v < 256 := by decide

theorem witness_RepackTransactionGivesREPACK : legalWidth 8 = true ∧ legalWidth 1 = true := by decide

theorem witness_RepackWidthErrorIsSticky :
    legalWidth 5 = true ∧ legalWidth 8 = true ∧ (∀ v ∈ ([31] : List Byte), v.toNat < 2 ^ (5 : BitVec 4).toNat) ∧
    2 ^ (5 : BitVec 4).toNat ≤ (32 : Byte).toNat := by decide

/-- The checksum of `a12uel5l`, and a symbol changed in it. -/
theorem witness_OneWrongSymbolIsDetected :
    polymod ([3, 0, 1, 10, 28] ++ [zext30 25] ++ [31, 20, 31]) = 1 ∧ (24 : Sym) ≠ 25 := by decide

theorem witness_PmhrpChecksumsTheExpandedString :
    ({ State.reset with len := 91 } : State).len = 91 ∧ ({ State.reset with len := 90 } : State).len.toNat ≤ 90 := by
  decide

theorem witness_PmrdAndPmvfyAnswerFromChk : State.reset.chk = 1 ∧ ({ State.reset with chk := 0 } : State).chk ≠ 1 := by
  decide

/-- An hrp of the greatest length. -/
theorem witness_VerifyTransactionGivesVERIFY : (List.replicate 90 (0x61 : Byte)).length ≤ 90 := by decide

/-- An uppercase letter of the alphabet, and a character that is not in it. -/
theorem witness_CharacterCommandsUseTheAlphabet :
    charEnc 31 = (if 0x41 ≤ (0x4C : Byte).toNat ∧ (0x4C : Byte).toNat ≤ 0x5A then (0x4C : Byte) + 0x20 else 0x4C) ∧
    (∀ x : Sym, charEnc x ≠
      (if 0x41 ≤ (0x31 : Byte).toNat ∧ (0x31 : Byte).toNat ≤ 0x5A then (0x31 : Byte) + 0x20 else 0x31)) := by decide

theorem witness_CharacterTablesAreInverse : charDec 0x71 = some 0 := by decide

theorem witness_EnchrpSendsTheHrpAndSeparator :
    ({ State.reset with len := 91 } : State).len = 91 ∧ ({ State.reset with len := 90 } : State).len.toNat ≤ 90 := by
  decide

/-- An hrp of the greatest length and one of 91 characters. -/
theorem witness_EncodeTransactionGivesENCODE :
    (List.replicate 90 (0x61 : Byte)).length ≤ 90 ∧ 90 < (List.replicate 91 (0x61 : Byte)).length := by decide

/-- One state for each of the eight steps' outcomes; the checksum ones are `a12uel5m` and `a12uel5l`. -/
theorem witness_DecodeMakesTheEightSteps :
    (let s := loaded "a12uel5l" 8 true false
     let str := (List.range s.len.toNat).map s.cell
     s.len.toNat ≤ 91 ∧ s.np = false ∧ (s.low && s.upp) = false ∧ s.len ≠ 91 ∧ str[1]? = some 0x31 ∧
       (∀ k < 8, 1 < k → str[k]? ≠ some 0x31) ∧ 1 + 7 ≤ s.len.toNat ∧
       ((str.drop 2).map lower).map charDec = ([10, 28, 25, 31, 20, 31] : List Sym).map some ∧
       polymod (expand ((str.take 1).map lower) ++ ([10, 28, 25, 31, 20, 31] : List Sym).map zext30) = 1 ∧
       polymod (expand ((str.take 1).map lower) ++ ([10, 28, 25, 31, 20, 27] : List Sym).map zext30) ≠ 1) ∧
    (let s := loaded "x1b4n0q5v" 9 true false
     let str := (List.range s.len.toNat).map s.cell
     str[1]? = some 0x31 ∧ 1 + 7 ≤ s.len.toNat ∧ ∃ c ∈ (str.drop 2).map lower, charDec c = none) ∧
    (let s := loaded "a12uel5" 7 true false
     s.cell 1 = 0x31 ∧ s.len.toNat < 1 + 7) ∧
    ({ State.reset with np := true, len := 1 } : State).np = true ∧
    (loaded "aA" 2 true true).low = true ∧ (loaded "aA" 2 true true).upp = true ∧
    ({ State.reset with len := 91 } : State).len = 91 := by decide

/-- No separator from index 1 up: the only `1` is at index 0 (V40). -/
theorem witness_DecodeMakesTheEightSteps_separator :
    (let s := loaded "10a06t8" 7 true false
     ∀ k < 7, 1 ≤ k → ((List.range s.len.toNat).map s.cell)[k]? ≠ some 0x31) := by decide

theorem witness_RepackerFrame :
    repackerCommand (.rppush 1) = true ∧ goesOn (exec (.rppush 1) State.reset) = true ∧
    repackerCommand .rpend = true ∧ goesOn (exec .rpend State.reset) = true ∧
    repackerCommand (.rpcfg 5 8 false) = true ∧ goesOn (exec (.rpcfg 5 8 false) State.reset) = true := by decide

theorem witness_PolymodAndCharacterFrame :
    ([.pminit, .pmstep 1, .pmhrp, .pmrd, .pmvfy, .cxenc 1, .cxdec 1] : List Instr).all
      (fun i => goesOn (exec i State.reset)) = true := by decide

theorem witness_BufferFrame :
    ([.srst, .sbclr, .sbput 1] : List Instr).all (fun i => goesOn (exec i State.reset)) = true ∧
    goesOn (exec (.sbput 1) { State.reset with len := 90, np := true, low := true, upp := true }) = true := by decide

theorem witness_EncoderAndDecoderFrame :
    ([.enchrp, .encsym 1, .encfin, .decode] : List Instr).all (fun i => goesOn (exec i State.reset)) = true := by decide

theorem witness_BufferReadersCanBeRepeated :
    ([.pmhrp, .enchrp, .decode] : List Instr).all (fun i => goesOn (exec i State.reset)) = true := by decide

theorem witness_RepackerCommandsCommuteWithTheOthers :
    repackerCommand (.rppush 1) = true ∧ repackerCommand .decode = false ∧ Instr.decode ≠ .srst ∧
    goesOn (exec (.rppush 1) State.reset) = true ∧ goesOn (exec .decode (after (exec (.rppush 1) State.reset))) = true := by
  decide

set_option maxRecDepth 8000 in
theorem witness_EncodedStringsDecodeBack :
    (bytes "bc" ≠ [] ∧ (∀ c ∈ bytes "bc", 33 ≤ c.toNat ∧ c.toNat ≤ 126) ∧
      (∀ c ∈ bytes "bc", ¬ (0x41 ≤ c.toNat ∧ c.toNat ≤ 0x5A)) ∧ (bytes "bc").length + 7 + 81 ≤ 90) ∧
    (decodeF (encodeF (bytes "bc") [0, 0, 10, 7, 10])).toOption = some (bytes "bc", [0, 0, 10, 7, 10]) := by decide

end Sys2Proof.Tests
end

section
/-! SUPPORT. What one step does with a word on the port (spec/00_scope.md R9, spec/10_state.md R22). -/

namespace Sys2Proof.Machine

open Sys2Proof

/-- A row of 16 bits in the opcode table is the word itself. -/
@[simp] theorem tableWord_toNat (w : CmdWord) : tableWord 16 w.toNat = w := by
  rw [tableWord, Nat.mod_eq_of_lt w.isLt, BitVec.ofNat_toNat, BitVec.setWidth_eq]

/-- Giving the block a 16-bit word offers it on the port. -/
@[simp] theorem State.withFetchWord_toNat (s : State) (w : CmdWord) :
    s.withFetchWord 16 w.toNat = s.offer w := by
  rw [State.withFetchWord, tableWord_toNat]

/-- A step takes an offered word off the port again and runs its command. -/
theorem step_offer {w : CmdWord} {i : Instr} (s : State) (hd : decode w = .ok i) :
    step (s.offer w) = exec i s :=
  step_command (s.offer_inputs w) hd

/-- Settles O6: the word is consumed by `step_command`, and `withFetchWord` is `offer` on a word of 16 bits. -/
theorem stepRunsTheDecodedCommand : Obligations.StepRunsTheDecodedCommand := by
  refine ⟨fun s w rest i hin hd => step_command hin hd, fun s w i hd => ?_⟩
  rw [State.withFetchWord_toNat]
  exact step_offer s hd

end Sys2Proof.Machine
end

section
/-! SUPPORT. The units of the block (spec/10_state.md R32): which part of the state a command reads and which it
writes.  A command's effect is stated over every state that has the same contents in the part it reads, so that frames,
commutation and noninterference all follow from one law for each unit. -/

namespace Sys2Proof.Machine

open Sys2Proof

/-- `b` with the repacker's registers of `s`. -/
def State.withRepackerOf (b s : State) : State :=
  { b with acc := s.acc, bits := s.bits, fromBits := s.fromBits, toBits := s.toBits, pad := s.pad, rpe := s.rpe }

/-- `b` with the checksum and the string buffer of `s`: all that is neither the repacker's nor a port. -/
def State.withStringUnitsOf (b s : State) : State :=
  { b with chk := s.chk, len := s.len, np := s.np, low := s.low, upp := s.upp, sb := s.sb }

/-- `s'` holds in the checksum and the string buffer what a command can read of them in `s`. -/
structure State.ReadsAs (s' s : State) : Prop where
  chk : s'.chk = s.chk
  len : s'.len = s.len
  np : s'.np = s.np
  low : s'.low = s.low
  upp : s'.upp = s.upp
  string : s'.string = s.string

/-- The commands that write no register but CHK (R32). -/
def chkCommand : Instr → Bool
  | .pminit => true
  | .pmstep _ => true
  | .pmhrp => true
  | .pmrd => true
  | .pmvfy => true
  | .cxenc _ => true
  | .cxdec _ => true
  | .enchrp => true
  | .encsym _ => true
  | .encfin => true
  | .decode => true
  | .srst => false
  | .sbclr => false
  | .sbput _ => false
  | .rpcfg _ _ _ => false
  | .rppush _ => false
  | .rpend => false

/-- Every command belongs to the repacker, writes CHK at most, or is one of the three that write the buffer's
registers. -/
theorem unit_cases (i : Instr) :
    repackerCommand i = true ∨ chkCommand i = true ∨ i = .srst ∨ i = .sbclr ∨ ∃ c, i = .sbput c := by
  cases i <;> simp [repackerCommand, chkCommand]

/-- A command has one next state. -/
theorem next_unique {out : Host.Outcome State Fault Refusal} {t t' : State} (h : out = .next t) (h' : out = .next t') :
    t = t' := Host.Outcome.next.inj (h.symm.trans h')

/-! ## The repacker's commands -/

theorem execRppush_pending {c : Byte} {s : State} (hr : s.rpe = true) :
    execRppush c s = .next (s.answers [] .eWidth 0) := (if_pos hr).trans (raise_answers ..)

theorem execRppush_wide {c : Byte} {s : State} (hr : s.rpe = false) (hw : 2 ^ s.fromBits.toNat ≤ c.toNat) :
    execRppush c s = .next ({ s with rpe := true }.answers [] .eWidth 0) :=
  (if_neg (by simp [hr])).trans ((if_pos (by simpa [tooWide] using hw)).trans (raise_answers ..))

/-- The accumulator and the loop's result of an RPPUSH whose value fits. -/
def State.pushed (s : State) (c : Byte) : Nat := shiftIn accW s.acc.toNat s.fromBits.toNat c.toNat

/-- See `State.pushed`. -/
def State.pushSlices (s : State) (c : Byte) : List Nat × Nat :=
  slices (s.pushed c) s.toBits.toNat (s.bits.toNat + s.fromBits.toNat) (s.bits.toNat + s.fromBits.toNat)

theorem execRppush_fits {c : Byte} {s : State} (hr : s.rpe = false) (hw : c.toNat < 2 ^ s.fromBits.toNat)
    (ht : s.toBits ≠ 0) :
    execRppush c s =
      .next ({ s with acc := BitVec.ofNat 15 (s.pushed c), bits := BitVec.ofNat 4 (s.pushSlices c).2 }.answers
        (beats .rpv ((s.pushSlices c).1.map (BitVec.ofNat 8))) .ok (natValue (s.pushSlices c).1.length)) :=
  (if_neg (by simp [hr])).trans ((if_neg (by simpa [tooWide] using hw)).trans ((if_neg ht).trans rfl))

/-- What an RPEND that completes does depends on ACC by the left-aligned leftover only. -/
theorem execRpend_of_next {s t : State} (h : execRpend s = .next t) :
    ∃ (bs : List Beat) (st : Status) (v : Value), ∀ s' : State, s'.rpe = s.rpe → s'.pad = s.pad → s'.bits = s.bits →
      s'.fromBits = s.fromBits → s'.toBits = s.toBits →
      leftAligned s'.acc.toNat s.bits.toNat s.toBits.toNat = leftAligned s.acc.toNat s.bits.toNat s.toBits.toNat →
      execRpend s' = .next (s'.clearRepacker.answers bs st v) := by
  obtain ⟨hr, -⟩ | ⟨hr, hb, ⟨hp, h0, -⟩ | ⟨hp, h0, -⟩ | ⟨hp, h0, -⟩ | ⟨hp, h0, h1, -⟩⟩ := execRpend_next h
  · exact ⟨[], .eWidth, 0, fun s' er _ _ _ _ _ => by simp [execRpend, er, hr, raise_answers]⟩
  · refine ⟨[⟨.rpv, BitVec.ofNat 8 (leftAligned s.acc.toNat s.bits.toNat s.toBits.toNat)⟩], .ok, 1, ?_⟩
    intro s' er ep eb ef et el
    simp [execRpend, er, ep, eb, et, hr, hp, Nat.not_lt.mpr hb, h0, el, beats, ← respond_emit_answers]
  · refine ⟨[], .ok, 0, fun s' er ep eb ef et el => ?_⟩
    simp [execRpend, er, ep, eb, et, hr, hp, h0, respond_answers]
  · refine ⟨[], .ePadding, 0, fun s' er ep eb ef et el => ?_⟩
    rcases h0 with h0 | h0 <;>
      simp [execRpend, er, ep, eb, et, ef, hr, hp, Nat.not_lt.mpr hb, h0, el, raise_answers]
  · refine ⟨[], .ok, 0, fun s' er ep eb ef et el => ?_⟩
    simp [execRpend, er, ep, eb, et, ef, hr, hp, Nat.not_lt.mpr hb, Nat.not_le.mpr h0, el, h1, respond_answers]

/-- A repacker command reads and writes the repacker's registers only: what it does is the same in every state that
has the repacker's registers of `s`. -/
theorem exec_repacker_of_next {i : Instr} {s t : State} (hi : repackerCommand i = true) (h : exec i s = .next t) :
    ∃ (r : State) (bs : List Beat) (st : Status) (v : Value), ∀ b : State,
      exec i (b.withRepackerOf s) = .next ((b.withRepackerOf r).answers bs st v) := by
  cases i with
  | rpcfg f w p =>
    exact ⟨{ s with fromBits := f, toBits := w, pad := p, acc := 0, bits := 0, rpe := false }, [], .ok, 0,
      fun b => execRpcfg_eq ..⟩
  | rppush c =>
    obtain ⟨hr, -⟩ | ⟨hr, hw, -⟩ | ⟨hr, hw, ht, -⟩ := execRppush_next h
    · exact ⟨s, [], .eWidth, 0, fun b => execRppush_pending (s := b.withRepackerOf s) hr⟩
    · exact ⟨{ s with rpe := true }, [], .eWidth, 0, fun b => execRppush_wide (s := b.withRepackerOf s) hr hw⟩
    · exact ⟨{ s with acc := BitVec.ofNat 15 (s.pushed c), bits := BitVec.ofNat 4 (s.pushSlices c).2 },
        beats .rpv ((s.pushSlices c).1.map (BitVec.ofNat 8)), .ok, natValue (s.pushSlices c).1.length,
        fun b => execRppush_fits (s := b.withRepackerOf s) hr hw ht⟩
  | rpend =>
    obtain ⟨bs, st, v, hs⟩ := execRpend_of_next h
    exact ⟨s.clearRepacker, bs, st, v, fun b => hs (b.withRepackerOf s) rfl rfl rfl rfl rfl rfl⟩
  | _ => cases hi

/-! ## The commands that write CHK at most -/

/-- `exec_reader` for every state in which the command completes. -/
theorem exec_reader_of_next {i : Instr} (hi : i = .pmhrp ∨ i = .enchrp ∨ i = .decode) {s t : State}
    (h : exec i s = .next t) :
    ∃ (oc : Option Word30) (bs : List Beat) (st : Status) (v : Value), ∀ s' : State, s'.np = s.np → s'.low = s.low →
      s'.upp = s.upp → s'.len = s.len → s'.string = s.string →
      exec i s' = .next ({ s' with chk := oc.getD s'.chk }.answers bs st v) := by
  by_cases hl : s.len.toNat ≤ 91
  · exact exec_reader hi hl
  rcases hi with rfl | rfl | rfl
  · obtain ⟨hl', -⟩ | ⟨hl', -⟩ := execPmhrp_next h <;> omega
  · obtain ⟨hl', -⟩ | ⟨hl', -⟩ := execEnchrp_next h <;> omega
  · obtain ⟨hn, -⟩ | ⟨hn, hm, -⟩ | ⟨-, -, ⟨hl', -⟩ | ⟨hl', -⟩⟩ := execDecode_next h
    · exact ⟨none, [], .eCharset, 0, fun s' en _ _ _ _ => (if_pos (en.trans hn)).trans (raise_answers ..)⟩
    · refine ⟨none, [], .eMixedCase, 0, fun s' en el eu _ _ => ?_⟩
      have hm' : s'.mixedCase = true := by rw [State.mixedCase, el, eu]; exact hm
      exact (if_neg (by simp [en, hn])).trans ((if_pos hm').trans (raise_answers ..))
    · omega
    · omega

/-- A command that writes CHK at most does the same in every state that reads as `s`. -/
theorem exec_chk_of_next {i : Instr} {s t : State} (hi : chkCommand i = true) (h : exec i s = .next t) :
    ∃ (c : Word30) (bs : List Beat) (st : Status) (v : Value), ∀ s' : State, s'.ReadsAs s →
      exec i s' = .next ({ s' with chk := c }.answers bs st v) := by
  have reader : i = .pmhrp ∨ i = .enchrp ∨ i = .decode → ∃ (c : Word30) (bs : List Beat) (st : Status) (v : Value),
      ∀ s' : State, s'.ReadsAs s → exec i s' = .next ({ s' with chk := c }.answers bs st v) := fun hr => by
    obtain ⟨oc, bs, st, v, hs⟩ := exec_reader_of_next hr h
    exact ⟨oc.getD s.chk, bs, st, v, fun s' e => by rw [hs s' e.np e.low e.upp e.len e.string, e.chk]⟩
  have keeps : ∀ s' : State, s'.ReadsAs s → { s' with chk := s.chk } = s' := fun s' e => by rw [← e.chk]
  cases i with
  | pmhrp => exact reader (.inl rfl)
  | enchrp => exact reader (.inr (.inl rfl))
  | decode => exact reader (.inr (.inr rfl))
  | pminit => exact ⟨1, [], .ok, 0, fun s' _ => execPminit_eq s'⟩
  | pmstep x =>
    exact ⟨polystep s.chk (zext30 x), [], .ok, 0, fun s' e => (execPmstep_eq x s').trans (by rw [e.chk])⟩
  | pmrd => exact ⟨s.chk, [], .ok, word30Value s.chk, fun s' e => by rw [keeps s' e, ← e.chk]; exact execPmrd_eq s'⟩
  | pmvfy =>
    exact ⟨s.chk, [], .ok, if s.chk = 1 then 1 else 0, fun s' e => by rw [keeps s' e, ← e.chk]; exact execPmvfy_eq s'⟩
  | cxenc x => exact ⟨s.chk, [], .ok, _, fun s' e => by rw [keeps s' e]; exact execCxenc_eq x s'⟩
  | cxdec c =>
    cases hc : charDec (lower c) with
    | none => exact ⟨s.chk, [], .eCharset, 0, fun s' e => by rw [keeps s' e, exec, execCxdec_eq, hc]⟩
    | some x => exact ⟨s.chk, [], .ok, symValue x, fun s' e => by rw [keeps s' e, exec, execCxdec_eq, hc]⟩
  | encsym x => exact ⟨polystep s.chk (zext30 x), _, _, _, fun s' e => (execEncsym_eq x s').trans (by rw [e.chk])⟩
  | encfin =>
    exact ⟨polyfeed s.chk (List.replicate 6 0), _, _, _, fun s' e => (execEncfin_eq s').trans (by rw [e.chk])⟩
  | _ => cases hi

theorem State.ReadsAs.refl (s : State) : s.ReadsAs s := ⟨rfl, rfl, rfl, rfl, rfl, rfl⟩

/-- What a command that writes CHK at most leaves. -/
theorem exec_chk_next {i : Instr} {s t : State} (hi : chkCommand i = true) (h : exec i s = .next t) :
    ∃ (c : Word30) (bs : List Beat) (st : Status) (v : Value), t = { s with chk := c }.answers bs st v := by
  obtain ⟨c, bs, st, v, hs⟩ := exec_chk_of_next hi h
  exact ⟨c, bs, st, v, next_unique h (hs s (.refl s))⟩

/-- What a repacker command leaves. -/
theorem exec_repacker_next {i : Instr} {s t : State} (hi : repackerCommand i = true) (h : exec i s = .next t) :
    ∃ (r : State) (bs : List Beat) (st : Status) (v : Value), t = (s.withRepackerOf r).answers bs st v := by
  obtain ⟨r, bs, st, v, hs⟩ := exec_repacker_of_next hi h
  exact ⟨r, bs, st, v, next_unique h (hs s)⟩

theorem exec_srst_next {s t : State} (h : exec .srst s = .next t) :
    t = { State.reset with sb := s.sb, sent := s.sent, inputs := s.inputs }.answers [] .ok 0 :=
  next_unique h (execSrst_eq s)

theorem exec_sbclr_next {s t : State} (h : exec .sbclr s = .next t) :
    t = { s with len := 0, np := false, low := false, upp := false }.answers [] .ok 0 :=
  next_unique h (execSbclr_eq s)

/-- What SBPUT leaves, on either side of the buffer's capacity. -/
theorem exec_sbput_next {c : Byte} {s t : State} (h : exec (.sbput c) s = .next t) :
    (s.len.toNat < 90 ∧ t = { s.noteChar c with len := s.len + 1, sb := s.sb.write s.len.toNat c }.answers [] .ok
      (lenValue (s.len + 1))) ∨
    (90 ≤ s.len.toNat ∧ t = { s.noteChar c with len := 91 }.answers [] .eOverflow 91) := by
  have ht := next_unique h (execSbput_eq c s)
  split at ht
  · rename_i hl; exact .inl ⟨hl, ht⟩
  · rename_i hl; exact .inr ⟨by omega, ht⟩

/-- A command that is neither the repacker's nor SRST reads and writes the checksum and the string buffer only: what it
does is the same in every state that has those of `s`. -/
theorem exec_other_of_next {j : Instr} {s t : State} (hj : repackerCommand j = false) (hs : j ≠ .srst)
    (h : exec j s = .next t) :
    ∃ (q : State) (bs : List Beat) (st : Status) (v : Value), ∀ b : State,
      exec j (b.withStringUnitsOf s) = .next ((b.withStringUnitsOf q).answers bs st v) := by
  obtain hj' | hj' | rfl | rfl | ⟨c, rfl⟩ := unit_cases j
  · rw [hj] at hj'; cases hj'
  · obtain ⟨c, bs, st, v, hc⟩ := exec_chk_of_next hj' h
    exact ⟨{ s with chk := c }, bs, st, v, fun b => hc _ ⟨rfl, rfl, rfl, rfl, rfl, rfl⟩⟩
  · exact absurd rfl hs
  · exact ⟨{ s with len := 0, np := false, low := false, upp := false }, [], .ok, 0,
      fun b => execSbclr_eq (b.withStringUnitsOf s)⟩
  · by_cases hl : s.len.toNat < 90
    · refine ⟨{ s.noteChar c with len := s.len + 1, sb := s.sb.write s.len.toNat c }, [], .ok,
        lenValue (s.len + 1), fun b => ?_⟩
      exact (execSbput_eq c (b.withStringUnitsOf s)).trans (congrArg _ (if_pos hl))
    · refine ⟨{ s.noteChar c with len := 91 }, [], .eOverflow, 91, fun b => ?_⟩
      exact (execSbput_eq c (b.withStringUnitsOf s)).trans (congrArg _ (if_neg hl))

/-- Settles O53: each command's effect depends on its own units only, and the other leaves these as they were, so each
sends in either order what it sends alone. -/
theorem repackerCommandsCommuteWithTheOthers : Obligations.RepackerCommandsCommuteWithTheOthers := by
  intro i j s t₁ t₂ hi hj hs h₁ h₂
  obtain ⟨r, bsi, sti, vi, hr⟩ := exec_repacker_of_next hi h₁
  obtain ⟨q, bsj, stj, vj, hq⟩ := exec_other_of_next hj hs h₂
  have e₁ : t₁ = (s.withRepackerOf r).answers bsi sti vi := next_unique h₁ (hr s)
  have e₂ : t₂ = (t₁.withStringUnitsOf q).answers bsj stj vj := next_unique h₂ (hq t₁)
  subst e₁ e₂
  refine ⟨_, _, bsi.map Output.beat ++ [.response ⟨sti, vi⟩], bsj.map Output.beat ++ [.response ⟨stj, vj⟩],
    hq s, hr ((s.withStringUnitsOf q).answers bsj stj vj), ?_, ?_, ?_, ?_, rfl⟩
  all_goals simp [State.withRepackerOf, State.withStringUnitsOf]

end Sys2Proof.Machine
end

section
/-! SUPPORT. What every step keeps (spec/10_state.md R31, R38; spec/43_buffer_system.md R164): for each fact one lemma
about a command, and one about a step. -/

namespace Sys2Proof.Machine

open Sys2Proof

/-! ## The ranges of the registers (R38) -/

theorem legalWidth_iff (w : BitVec 4) : legalWidth w = true ↔ 1 ≤ w.toNat ∧ w.toNat ≤ 8 := by
  simp [legalWidth]

section
variable {s : State} (h : s.RegsLegal)
include h

theorem State.RegsLegal.from_le : s.fromBits.toNat ≤ 8 := ((legalWidth_iff _).mp h.fromLegal).2

theorem State.RegsLegal.to_pos : 1 ≤ s.toBits.toNat := ((legalWidth_iff _).mp h.toLegal).1

theorem State.RegsLegal.to_le : s.toBits.toNat ≤ 8 := ((legalWidth_iff _).mp h.toLegal).2

/-- The ports are no registers. -/
theorem State.RegsLegal.withPorts (o : List Output) (x : List Input) :
    ({ s with sent := o, inputs := x } : State).RegsLegal := by
  obtain ⟨hf, ht, hb, hl, he⟩ := h
  exact ⟨hf, ht, hb, hl, he⟩

end

theorem State.reset_regsLegal : State.reset.RegsLegal :=
  ⟨by decide, by decide, by decide, by decide, fun _ => ⟨rfl, rfl, rfl⟩⟩

/-- After RPPUSH's loop what is left of the valid bits is their number modulo TO. -/
theorem State.pushSlices_snd {s : State} (c : Byte) (ht : 1 ≤ s.toBits.toNat) :
    (s.pushSlices c).2 = (s.bits.toNat + s.fromBits.toNat) % s.toBits.toNat := by
  rw [State.pushSlices, slices_eq _ ht _ _ le_rfl]

/-- `pushSlices_snd` for BITS, which holds the number left. -/
theorem State.pushSlices_bits {s : State} (c : Byte) (ht : 1 ≤ s.toBits.toNat) :
    (BitVec.ofNat 4 (s.pushSlices c).2).toNat = (s.bits.toNat + s.fromBits.toNat) % s.toBits.toNat := by
  have hlt := Nat.mod_lt (s.bits.toNat + s.fromBits.toNat) (show s.toBits.toNat > 0 from ht)
  rw [BitVec.toNat_ofNat, State.pushSlices_snd c ht, Nat.mod_eq_of_lt (by omega)]

/-- What RPEND leaves, whatever it answers. -/
theorem exec_rpend_next {s t : State} (h : exec .rpend s = .next t) :
    ∃ (bs : List Beat) (st : Status) (v : Value), t = s.clearRepacker.answers bs st v := by
  obtain ⟨bs, st, v, hs⟩ := execRpend_of_next h
  exact ⟨bs, st, v, next_unique h (hs s rfl rfl rfl rfl rfl rfl)⟩

theorem execRppush_keeps_bitsBelow {c : Byte} {s t : State} (ht : 1 ≤ s.toBits.toNat)
    (hb : s.bits.toNat < s.toBits.toNat) (h : execRppush c s = .next t) : t.bits.toNat < t.toBits.toNat := by
  obtain ⟨-, rfl⟩ | ⟨-, -, rfl⟩ | ⟨hr, hw, h0, -⟩ := execRppush_next h
  · exact hb
  · exact hb
  · rw [execRppush_fits hr hw h0] at h
    obtain rfl := Host.Outcome.next.inj h
    simpa [State.pushSlices_bits c ht] using Nat.mod_lt _ ht

/-- Below 90 LEN counts one more character without wrapping. -/
theorem len_succ_toNat {n : BitVec 7} (h : n.toNat < 90) : (n + 1).toNat = n.toNat + 1 := by
  rw [BitVec.toNat_add]; simp; omega

theorem exec_keeps_regsLegal {i : Instr} {s t : State} (hw : WellFormed i = true) (hs : s.RegsLegal)
    (h : exec i s = .next t) : t.RegsLegal := by
  obtain hi | hi | rfl | rfl | ⟨c, rfl⟩ := unit_cases i
  · cases i with
    | rpcfg f w p =>
      obtain rfl := next_unique h (execRpcfg_eq f w p s)
      simp only [WellFormed, Bool.and_eq_true] at hw
      exact ⟨hw.1, hw.2, ((legalWidth_iff w).mp hw.2).1, hs.lenLegal, hs.emptyClear⟩
    | rppush c =>
      have hb := execRppush_keeps_bitsBelow hs.to_pos hs.bitsBelow h
      obtain ⟨-, rfl⟩ | ⟨-, -, rfl⟩ | ⟨-, -, -, _, _, -, -, rfl⟩ := execRppush_next h <;>
        exact ⟨hs.fromLegal, hs.toLegal, hb, hs.lenLegal, hs.emptyClear⟩
    | rpend =>
      obtain ⟨bs, st, v, rfl⟩ := exec_rpend_next h
      exact ⟨hs.fromLegal, hs.toLegal, hs.to_pos, hs.lenLegal, hs.emptyClear⟩
    | _ => cases hi
  · obtain ⟨c, bs, st, v, rfl⟩ := exec_chk_next hi h
    exact ⟨hs.fromLegal, hs.toLegal, hs.bitsBelow, hs.lenLegal, hs.emptyClear⟩
  · obtain rfl := exec_srst_next h
    obtain ⟨hf, ht, hb, hl, he⟩ := State.reset_regsLegal
    exact ⟨hf, ht, hb, hl, he⟩
  · obtain rfl := exec_sbclr_next h
    exact ⟨hs.fromLegal, hs.toLegal, hs.bitsBelow, Nat.zero_le _, fun _ => ⟨rfl, rfl, rfl⟩⟩
  · obtain ⟨hl, rfl⟩ | ⟨-, rfl⟩ := exec_sbput_next h
    · have hn := len_succ_toNat hl
      refine ⟨hs.fromLegal, hs.toLegal, hs.bitsBelow, ?_, fun h0 => ?_⟩
      · show (s.len + 1).toNat ≤ 91
        omega
      · have h0' : (s.len + 1).toNat = 0 := congrArg BitVec.toNat h0
        omega
    · exact ⟨hs.fromLegal, hs.toLegal, hs.bitsBelow, le_refl 91, fun h0 => absurd h0 (by simp)⟩

/-! ## The form of the string buffer (R60) -/

/-- Only SBPUT stores, and only to the cell LEN below 90. -/
theorem exec_sb {i : Instr} {s t : State} (h : exec i s = .next t) :
    t.sb = s.sb ∨ ∃ c, i = .sbput c ∧ s.len.toNat < 90 ∧ t.sb = s.sb.write s.len.toNat c := by
  obtain hi | hi | rfl | rfl | ⟨c, rfl⟩ := unit_cases i
  · obtain ⟨r, bs, st, v, rfl⟩ := exec_repacker_next hi h; exact .inl rfl
  · obtain ⟨c, bs, st, v, rfl⟩ := exec_chk_next hi h; exact .inl rfl
  · obtain rfl := exec_srst_next h; exact .inl rfl
  · obtain rfl := exec_sbclr_next h; exact .inl rfl
  · obtain ⟨hl, rfl⟩ | ⟨-, rfl⟩ := exec_sbput_next h
    · exact .inr ⟨c, rfl, hl, rfl⟩
    · exact .inl rfl

theorem exec_keeps_wf {i : Instr} {s t : State} (hs : s.sb.wf = true) (h : exec i s = .next t) : t.sb.wf = true := by
  obtain e | ⟨c, -, hl, e⟩ := exec_sb h
  · rw [e]; exact hs
  · rw [e]; exact Memory.wf_write c hs hl

/-- Settles O11: by what a step can do, each command keeping the registers' ranges and the buffer's form. -/
theorem everyStepKeepsTheStateLegal : Obligations.EveryStepKeepsTheStateLegal := by
  intro s t ⟨hr, hm⟩ h
  obtain ⟨-, rfl⟩ | ⟨rest, -, rfl⟩ | ⟨w, rest, -, ⟨i, -, hw, he⟩ | ⟨e, -, rfl⟩⟩ := step_cases h
  · exact ⟨hr, hm⟩
  · exact ⟨State.reset_regsLegal.withPorts s.sent rest, Memory.wf_reset⟩
  · exact ⟨exec_keeps_regsLegal hw (hr.withPorts s.sent rest) he,
      exec_keeps_wf (s := { s with inputs := rest }) hm he⟩
  · exact ⟨hr.withPorts _ rest, hm⟩

/-! ## The string held (R31, R164) -/

/-- What the two facts about the string say, as one. -/
def State.StringFacts (s : State) : Prop := s.StringWritten ∧ s.FlagsTell

/-- The facts about the string speak of LEN, the flags and the cells only. -/
theorem State.StringFacts.congr {s t : State} (h : s.StringFacts) (hl : t.len = s.len) (hn : t.np = s.np)
    (hlow : t.low = s.low) (hu : t.upp = s.upp) (hs : t.sb = s.sb) : t.StringFacts := by
  have hstr := State.string_congr hl hs
  obtain ⟨hw, hnp, hlo, hup⟩ := h
  refine ⟨fun a ha => ?_, ?_, ?_, ?_⟩
  · rw [hs]; exact hw a (by rwa [← hl])
  all_goals simp only [flagTells, hstr, hl, hn, hlow, hu]; assumption

/-- The facts hold of an empty buffer with the flags clear. -/
theorem State.stringFacts_of_empty {s : State} (hl : s.len = 0) (hn : s.np = false) (hlow : s.low = false)
    (hu : s.upp = false) : s.StringFacts := by
  have hstr : s.string = [] := by rw [State.string, hl]; rfl
  refine ⟨fun a ha => absurd ha (by simp [hl]), ?_, ?_, ?_⟩ <;> simp [flagTells, hstr, hn, hlow, hu]

/-- The string after SBPUT stored a character. -/
theorem State.string_stored (s : State) (c : Byte) (hl : s.len.toNat < 90) :
    ({ s.noteChar c with len := s.len + 1, sb := s.sb.write s.len.toNat c } : State).string = s.string ++ [c] :=
  State.string_store hl rfl rfl

/-- The string after SBPUT dropped a character. -/
theorem State.string_dropped (s : State) (c : Byte) (hl : 90 ≤ s.len.toNat) :
    ({ s.noteChar c with len := 91 } : State).string = s.string := State.string_overflow hl rfl rfl

/-- A flag goes on telling of its property when a character is stored and noted. -/
theorem flagTells_store {s t : State} {flag : Bool} {p : Byte → Bool} {c : Byte} (h : flagTells s flag p)
    (hl : s.len.toNat < 90) (hs : t.string = s.string ++ [c]) : flagTells t (flag || p c) p := by
  obtain ⟨hset, honly⟩ := h
  have honly' := honly (Nat.le_of_lt hl)
  simp only [flagTells, hs, List.any_append, List.any_cons, List.any_nil, Bool.or_false, Bool.or_eq_true]
  exact ⟨Or.imp_left hset, fun _ => Or.imp_left honly'⟩

/-- A flag goes on telling of its property when a character is noted and dropped: LEN is 91 then, and the flag may say
more than the string. -/
theorem flagTells_drop {s t : State} {flag : Bool} {p : Byte → Bool} {c : Byte} (h : flagTells s flag p)
    (hl : t.len = 91) (hs : t.string = s.string) : flagTells t (flag || p c) p := by
  refine ⟨fun ha => by simp [h.1 (by rwa [← hs])], fun hle => absurd hle ?_⟩
  rw [hl]; decide

theorem stringWritten_put {s t : State} {c : Byte} (h : s.StringWritten) (hl : s.len.toNat < 90)
    (hlen : t.len = s.len + 1) (hs : t.sb = s.sb.write s.len.toNat c) : t.StringWritten := by
  intro a ha
  rw [hs, Memory.read_write]
  split
  · rfl
  · rename_i hne
    refine h a ?_
    rw [hlen, len_succ_toNat hl] at ha
    omega

theorem execSbput_keeps_stringFacts {c : Byte} {s t : State} (hs : s.StringFacts)
    (h : exec (.sbput c) s = .next t) : t.StringFacts := by
  obtain ⟨hw, hn, hlow, hu⟩ := hs
  obtain ⟨hl, rfl⟩ | ⟨hl, rfl⟩ := exec_sbput_next h
  · have hstr := s.string_stored c hl
    exact ⟨stringWritten_put hw hl rfl rfl, flagTells_store hn hl hstr, flagTells_store hlow hl hstr,
      flagTells_store hu hl hstr⟩
  · have hstr := s.string_dropped c hl
    refine ⟨fun a ha => hw a ?_, flagTells_drop hn rfl hstr, flagTells_drop hlow rfl hstr, flagTells_drop hu rfl hstr⟩
    have hcap : a < 90 := lt_of_lt_of_le ha (Nat.min_le_right ..)
    exact lt_min (by omega) hcap

theorem exec_keeps_stringFacts {i : Instr} {s t : State} (hs : s.StringFacts) (h : exec i s = .next t) :
    t.StringFacts := by
  obtain hi | hi | rfl | rfl | ⟨c, rfl⟩ := unit_cases i
  · obtain ⟨r, bs, st, v, rfl⟩ := exec_repacker_next hi h
    exact hs.congr rfl rfl rfl rfl rfl
  · obtain ⟨c, bs, st, v, rfl⟩ := exec_chk_next hi h
    exact hs.congr rfl rfl rfl rfl rfl
  · obtain rfl := exec_srst_next h
    exact State.stringFacts_of_empty rfl rfl rfl rfl
  · obtain rfl := exec_sbclr_next h
    exact State.stringFacts_of_empty rfl rfl rfl rfl
  · exact execSbput_keeps_stringFacts hs h

/-- Settles O12: only SBPUT lengthens the string, and it stores the character and notes its properties. -/
theorem everyStepKeepsTheStringFacts : Obligations.EveryStepKeepsTheStringFacts := by
  intro s t _ hw hf h
  have hs : s.StringFacts := ⟨hw, hf⟩
  show t.StringFacts
  obtain ⟨-, rfl⟩ | ⟨rest, -, rfl⟩ | ⟨w, rest, -, ⟨i, -, -, he⟩ | ⟨e, -, rfl⟩⟩ := step_cases h
  · exact hs
  · exact State.stringFacts_of_empty rfl rfl rfl rfl
  · exact exec_keeps_stringFacts (s := { s with inputs := rest }) (hs.congr rfl rfl rfl rfl rfl) he
  · exact hs.congr rfl rfl rfl rfl rfl

/-- Settles O10: the registers are in range, the buffer is empty and its flags are clear. -/
theorem resetStateIsLegal : Obligations.ResetStateIsLegal :=
  ⟨⟨State.reset_regsLegal, Memory.wf_reset⟩, State.stringFacts_of_empty rfl rfl rfl rfl⟩

end Sys2Proof.Machine
end

section
/-! SUPPORT. The ports and the stops: which beats a command emits (spec/10_state.md R34, R35), that it never reads what
was sent, and exactly when it faults. -/

namespace Sys2Proof.Machine

open Sys2Proof

/-! ## Which commands emit which beats (R34) -/

/-- The commands that emit CHAR beats. -/
def EmitsChars (i : Instr) : Prop := i = .enchrp ∨ (∃ x, i = .encsym x) ∨ i = .encfin ∨ i = .decode

/-- The commands that emit RPV beats. -/
def EmitsValues (i : Instr) : Prop := (∃ c, i = .rppush c) ∨ i = .rpend

/-- What R34's table says of a beat that command `i` emits in state `s`. -/
def BeatAllowed (i : Instr) (s : State) (b : Beat) : Prop :=
  (b.tag = .char → EmitsChars i) ∧ (b.tag = .sym → i = .decode ∧ b.data.toNat < 32) ∧
  (b.tag = .rpv → EmitsValues i ∧ b.data.toNat < 2 ^ s.toBits.toNat)

/-- `t` has sent at most 91 beats that R34 allows `i`, and then one response, after what `s` had sent. -/
def Emits (i : Instr) (s t : State) : Prop :=
  ∃ (bs : List Beat) (st : Status) (v : Value), bs.length ≤ 91 ∧ (∀ b ∈ bs, BeatAllowed i s b) ∧
    t.sent = s.sent ++ bs.map Output.beat ++ [.response ⟨st, v⟩]

theorem emits_of_answers {i : Instr} {s u : State} {bs : List Beat} {st : Status} {v : Value} (hu : u.sent = s.sent)
    (hl : bs.length ≤ 91) (hb : ∀ b ∈ bs, BeatAllowed i s b) : Emits i s (u.answers bs st v) :=
  ⟨bs, st, v, hl, hb, by rw [State.answers_sent, hu]⟩

/-- A command that answers without a beat. -/
theorem emits_silent {i : Instr} {s u : State} {st : Status} {v : Value} (hu : u.sent = s.sent) :
    Emits i s (u.answers [] st v) := emits_of_answers hu (Nat.zero_le 91) (by simp)

/-- A command with one silent outcome, read off its equation. -/
theorem emits_silent_of_eq {i : Instr} {s t u : State} {st : Status} {v : Value} (h : exec i s = .next t)
    (he : exec i s = .next (u.answers [] st v)) (hu : u.sent = s.sent) : Emits i s t := by
  obtain rfl := next_unique h he
  exact emits_silent hu

@[simp] theorem beats_length (tag : Tag) (data : List Byte) : (beats tag data).length = data.length := by
  simp [beats]

theorem mem_beats {tag : Tag} {data : List Byte} {b : Beat} (h : b ∈ beats tag data) : b.tag = tag ∧ b.data ∈ data := by
  obtain ⟨c, hc, rfl⟩ := List.mem_map.mp h
  exact ⟨rfl, hc⟩

theorem beatAllowed_char {i : Instr} {s : State} {data : List Byte} (hi : EmitsChars i) :
    ∀ b ∈ beats .char data, BeatAllowed i s b := fun b hb => by
  have ht := (mem_beats hb).1
  exact ⟨fun _ => hi, by simp [ht], by simp [ht]⟩

theorem beatAllowed_sym {s : State} {data : List Sym} :
    ∀ b ∈ beats .sym (data.map symByte), BeatAllowed .decode s b := fun b hb => by
  obtain ⟨ht, hd⟩ := mem_beats hb
  obtain ⟨x, -, hx⟩ := List.mem_map.mp hd
  have hlt : b.data.toNat < 32 := by
    rw [← hx, symByte, BitVec.toNat_setWidth]
    exact lt_of_le_of_lt (Nat.mod_le ..) x.isLt
  exact ⟨by simp [ht], fun _ => ⟨rfl, hlt⟩, by simp [ht]⟩

theorem beatAllowed_rpv {i : Instr} {s : State} {data : List Nat} (hi : EmitsValues i)
    (hd : ∀ n ∈ data, n < 2 ^ s.toBits.toNat) :
    ∀ b ∈ beats .rpv (data.map (BitVec.ofNat 8)), BeatAllowed i s b := fun b hb => by
  obtain ⟨ht, hm⟩ := mem_beats hb
  obtain ⟨n, hn, hx⟩ := List.mem_map.mp hm
  have hlt : b.data.toNat < 2 ^ s.toBits.toNat := by
    rw [← hx, BitVec.toNat_ofNat]
    exact lt_of_le_of_lt (Nat.mod_le ..) (hd n hn)
  exact ⟨by simp [ht], by simp [ht], fun _ => ⟨hi, hlt⟩⟩

/-- The buffer holds at most 90 characters. -/
theorem State.string_length_le (s : State) : s.string.length ≤ 90 := by
  rw [State.string, State.cells_length]
  exact Nat.min_le_right ..

theorem execEnchrp_emits {s t : State} (h : execEnchrp s = .next t) : Emits .enchrp s t := by
  obtain ⟨-, rfl⟩ | ⟨-, rfl⟩ := execEnchrp_next h
  · exact emits_silent rfl
  · have hl := s.string_length_le
    exact emits_of_answers rfl (by simp; omega) (beatAllowed_char (.inl rfl))

theorem execDecode_emits {s t : State} (h : execDecode s = .next t) : Emits .decode s t := by
  obtain ⟨-, rfl⟩ | ⟨-, -, rfl⟩ | ⟨-, -, ⟨-, rfl⟩ | ⟨-, ⟨-, rfl⟩ | ⟨pos, -, -, ⟨-, rfl⟩ |
    ⟨hp, ⟨-, rfl⟩ | ⟨-, dwc, _, -, -, ⟨-, rfl⟩ | ⟨-, rfl⟩⟩⟩⟩⟩⟩ := execDecode_next h
  case inr.inr.inr.inr.inr =>
    have hl := s.string_length_le
    refine emits_of_answers rfl (by simp [splitHrp]; omega) fun b hb => ?_
    obtain hb | hb := List.mem_append.mp hb
    · exact beatAllowed_char (.inr (.inr (.inr rfl))) b hb
    · exact beatAllowed_sym b hb
  all_goals exact emits_silent rfl

theorem State.pushSlices_fst {s : State} (c : Byte) (ht : 1 ≤ s.toBits.toNat) :
    (s.pushSlices c).1 = (List.range ((s.bits.toNat + s.fromBits.toNat) / s.toBits.toNat)).map fun k =>
      topBits (s.pushed c) (s.bits.toNat + s.fromBits.toNat - (k + 1) * s.toBits.toNat) s.toBits.toNat := by
  rw [State.pushSlices, slices_eq _ ht _ _ le_rfl]

theorem execRppush_emits {c : Byte} {s t : State} (h : execRppush c s = .next t) : Emits (.rppush c) s t := by
  obtain ⟨-, rfl⟩ | ⟨-, -, rfl⟩ | ⟨hr, hw, h0, -⟩ := execRppush_next h
  · exact emits_silent rfl
  · exact emits_silent rfl
  · obtain rfl := next_unique h (execRppush_fits hr hw h0)
    have ht : 1 ≤ s.toBits.toNat := Nat.one_le_iff_ne_zero.mpr fun e => h0 (BitVec.eq_of_toNat_eq e)
    have hdiv := Nat.div_le_self (s.bits.toNat + s.fromBits.toNat) s.toBits.toNat
    refine emits_of_answers rfl (by simp [State.pushSlices_fst c ht]; omega) (beatAllowed_rpv (.inl ⟨c, rfl⟩) ?_)
    intro n hn
    rw [State.pushSlices_fst c ht] at hn
    obtain ⟨k, -, rfl⟩ := List.mem_map.mp hn
    exact topBits_lt ..

theorem execRpend_emits {s t : State} (h : execRpend s = .next t) : Emits .rpend s t := by
  obtain ⟨-, rfl⟩ | ⟨-, -, ⟨-, -, rfl⟩ | ⟨-, -, rfl⟩ | ⟨-, -, rfl⟩ | ⟨-, -, -, rfl⟩⟩ := execRpend_next h
  case inr.inl =>
    have hlt : ∀ n ∈ [leftAligned s.acc.toNat s.bits.toNat s.toBits.toNat], n < 2 ^ s.toBits.toNat := by
      simp [leftAligned_lt]
    exact emits_of_answers rfl (by simp) (beatAllowed_rpv (.inr rfl) hlt)
  all_goals exact emits_silent rfl

/-- Every command emits what R34's table allows it, and then answers. -/
theorem exec_emits {i : Instr} {s t : State} (h : exec i s = .next t) : Emits i s t := by
  cases i with
  | enchrp => exact execEnchrp_emits h
  | decode => exact execDecode_emits h
  | rppush c => exact execRppush_emits h
  | rpend => exact execRpend_emits h
  | encsym x =>
    obtain rfl := next_unique h (execEncsym_eq x s)
    exact emits_of_answers rfl (by simp) (beatAllowed_char (data := [charEnc x]) (.inr (.inl ⟨x, rfl⟩)))
  | encfin =>
    obtain rfl := next_unique h (execEncfin_eq s)
    exact emits_of_answers rfl (by simp [sixSyms]) (beatAllowed_char (.inr (.inr (.inl rfl))))
  | pmhrp => obtain ⟨-, rfl⟩ | ⟨-, rfl⟩ := execPmhrp_next h <;> exact emits_silent rfl
  | sbput c => obtain ⟨-, rfl⟩ | ⟨-, rfl⟩ := exec_sbput_next h <;> exact emits_silent rfl
  | cxdec c =>
    obtain rfl := next_unique h (execCxdec_eq c s)
    split <;> exact emits_silent rfl
  | srst => exact emits_silent_of_eq h (execSrst_eq s) rfl
  | sbclr => exact emits_silent_of_eq h (execSbclr_eq s) rfl
  | rpcfg f w p => exact emits_silent_of_eq h (execRpcfg_eq f w p s) rfl
  | pminit => exact emits_silent_of_eq h (execPminit_eq s) rfl
  | pmstep x => exact emits_silent_of_eq h (execPmstep_eq x s) rfl
  | pmrd => exact emits_silent_of_eq h (execPmrd_eq s) rfl
  | pmvfy => exact emits_silent_of_eq h (execPmvfy_eq s) rfl
  | cxenc x => exact emits_silent_of_eq h (execCxenc_eq x s) rfl

/-- Settles O15: by `exec_emits`, the only beats sent being the ones it speaks of. -/
theorem beatsComeFromTheirCommandsInRange : Obligations.BeatsComeFromTheirCommandsInRange := by
  intro i s t h b hb
  obtain ⟨bs, st, v, -, hbs, hsent⟩ := exec_emits h
  rw [hsent, List.append_assoc, List.drop_left, List.mem_append] at hb
  obtain hb | hb := hb
  · obtain ⟨b', hb', e⟩ := List.mem_map.mp hb
    obtain rfl := Output.beat.inj e
    exact hbs b' hb'
  · simp at hb

/-- A command that emits neither characters nor values leaves OUT. -/
theorem exec_out_of_silent {i : Instr} {s t : State} (hc : ¬ EmitsChars i) (hv : ¬ EmitsValues i)
    (h : exec i s = .next t) : t.out = s.out := by
  obtain ⟨bs, st, v, -, hbs, hsent⟩ := exec_emits h
  obtain rfl : bs = [] := List.eq_nil_iff_forall_not_mem.mpr fun b hb => by
    obtain ⟨h1, h2, h3⟩ := hbs b hb
    cases ht : b.tag with
    | char => exact hc (h1 ht)
    | sym => exact hc (.inr (.inr (.inr (h2 ht).1)))
    | rpv => exact hv (h3 ht).1
  simp [State.out, hsent, Output.beat?]

/-! ## What was sent is never read (R35) -/

/-- Outputs sent before an answer stand before it. -/
theorem State.answers_withSent (u : State) (bs : List Beat) (st : Status) (v : Value) (x : List Output) :
    { u with sent := x }.answers bs st v =
      { u.answers bs st v with sent := x ++ (u.answers bs st v).sent.drop u.sent.length } := by
  simp [State.answers]

/-- After any other record of what was sent a command does the same. -/
theorem exec_withSent {i : Instr} {s t : State} (h : exec i s = .next t) (x : List Output) :
    exec i { s with sent := x } = .next { t with sent := x ++ t.sent.drop s.sent.length } := by
  by_cases hi : repackerCommand i = true
  · obtain ⟨r, bs, st, v, hr⟩ := exec_repacker_of_next hi h
    obtain rfl := next_unique h (hr s)
    exact (hr { s with sent := x }).trans (congrArg _ ((s.withRepackerOf r).answers_withSent bs st v x))
  rw [Bool.not_eq_true] at hi
  by_cases hs : i = .srst
  · subst hs
    obtain rfl := exec_srst_next h
    exact (execSrst_eq _).trans
      (congrArg _ (State.answers_withSent { State.reset with sb := s.sb, sent := s.sent, inputs := s.inputs } ..))
  · obtain ⟨q, bs, st, v, hq⟩ := exec_other_of_next hi hs h
    obtain rfl := next_unique h (hq s)
    exact (hq { s with sent := x }).trans (congrArg _ ((s.withStringUnitsOf q).answers_withSent bs st v x))

/-- A command leaves the pending inputs. -/
theorem exec_inputs {i : Instr} {s t : State} (h : exec i s = .next t) : t.inputs = s.inputs := by
  obtain ⟨u, bs, st, v, rfl, -, hu⟩ := exec_answers h
  exact hu

/-- Settles O14: an illegal word answers alone; for a command by `exec_emits` and `exec_withSent`. -/
theorem everyCommandAnswersOnceAfterItsBeats : Obligations.EveryCommandAnswersOnceAfterItsBeats := by
  intro s t w rest hin h
  cases hd : decode w with
  | error e =>
    obtain rfl := next_unique h (step_illegal hin hd)
    refine ⟨rfl, ⟨[], .eIllegal, 0, Nat.zero_le 91, rfl⟩, fun x => ?_⟩
    rw [step_illegal (s := { s with sent := x }) hin hd]
    exact congrArg _ (State.answers_withSent { s with inputs := rest } ..)
  | ok i =>
    rw [step_command hin hd] at h
    obtain ⟨bs, st, v, hl, -, hsent⟩ := exec_emits h
    refine ⟨exec_inputs h, ⟨bs, st, v, hl, hsent⟩, fun x => ?_⟩
    rw [step_command (s := { s with sent := x }) hin hd]
    exact exec_withSent h x

/-! ## When a command faults (log entry 5) -/

/-- The states, outside the ranges of R20 and R38, in which `i` stops with fault `f`. -/
def FaultsIn (i : Instr) (s : State) (f : Fault) : Prop :=
  (f = .noSuchCell ∧ 91 < s.len.toNat ∧
    (i = .pmhrp ∨ i = .enchrp ∨ (i = .decode ∧ s.np = false ∧ (s.low && s.upp) = false))) ∨
  (f = .zeroWidth ∧ s.toBits = 0 ∧ s.rpe = false ∧ ∃ c : Byte, i = .rppush c ∧ c.toNat < 2 ^ s.fromBits.toNat) ∨
  (f = .negativeShift ∧ s.toBits.toNat < s.bits.toNat ∧ s.rpe = false ∧ i = .rpend)

/-- A command completes, or stops with one fault; each exactly where it should. -/
def SettledAt (i : Instr) (s : State) : Prop :=
  (∃ t, exec i s = .next t ∧ ∀ f, ¬ FaultsIn i s f) ∨ (∃ f, exec i s = .fault f ∧ ∀ g, FaultsIn i s g ↔ g = f)

theorem settledAt_reader {i : Instr} {s : State} (hi : i = .pmhrp ∨ i = .enchrp ∨ i = .decode)
    (hl : s.len.toNat ≤ 91) : SettledAt i s := by
  obtain ⟨_, _, _, _, h⟩ := exec_reader hi hl
  refine .inl ⟨_, h s rfl rfl rfl rfl rfl, fun f hf => ?_⟩
  obtain ⟨-, hl', -⟩ | ⟨-, -, -, c, rfl, -⟩ | ⟨-, -, -, rfl⟩ := hf
  · omega
  · simp at hi
  · simp at hi

theorem settledAt_pmhrp (s : State) : SettledAt .pmhrp s := by
  by_cases hl : s.len.toNat ≤ 91
  · exact settledAt_reader (.inl rfl) hl
  · have h91 : s.len.toNat ≠ 91 := by omega
    exact .inr ⟨.noSuchCell, (if_neg h91).trans (withCells_of_gt (by omega)), by simp [FaultsIn]; omega⟩

theorem settledAt_enchrp (s : State) : SettledAt .enchrp s := by
  by_cases hl : s.len.toNat ≤ 91
  · exact settledAt_reader (.inr (.inl rfl)) hl
  · have h91 : s.len.toNat ≠ 91 := by omega
    exact .inr ⟨.noSuchCell, (if_neg h91).trans (withCells_of_gt (by omega)), by simp [FaultsIn]; omega⟩

theorem settledAt_decode (s : State) : SettledAt .decode s := by
  by_cases hl : s.len.toNat ≤ 91
  · exact settledAt_reader (.inr (.inr rfl)) hl
  by_cases hn : s.np = true
  · exact .inl ⟨_, (if_pos hn).trans (raise_answers ..), by simp [FaultsIn, hn]⟩
  by_cases hm : s.mixedCase = true
  · exact .inl ⟨_, (if_neg hn).trans ((if_pos hm).trans (raise_answers ..)), by
      simp [FaultsIn, show (s.low && s.upp) = true from hm]⟩
  · have h91 : s.len.toNat ≠ 91 := by omega
    rw [State.mixedCase, Bool.not_eq_true] at hm
    have hf : ∀ g, FaultsIn .decode s g ↔ g = .noSuchCell := by simp [FaultsIn, hn, hm]; omega
    exact .inr ⟨.noSuchCell, (if_neg hn).trans ((if_neg (by simp [State.mixedCase, hm])).trans
      ((if_neg h91).trans (withCells_of_gt (by omega)))), hf⟩

theorem settledAt_rppush (c : Byte) (s : State) : SettledAt (.rppush c) s := by
  by_cases hr : s.rpe = true
  · exact .inl ⟨_, execRppush_pending hr, by simp [FaultsIn, hr]⟩
  rw [Bool.not_eq_true] at hr
  by_cases hw : 2 ^ s.fromBits.toNat ≤ c.toNat
  · exact .inl ⟨_, execRppush_wide hr hw, by simp [FaultsIn, hw]⟩
  by_cases ht : s.toBits = 0
  · have hwide : ¬ tooWide s.fromBits c = true := by simpa [tooWide] using hw
    exact .inr ⟨.zeroWidth, (if_neg (by simp [hr])).trans ((if_neg hwide).trans (if_pos ht)), by
      simp [FaultsIn, hr, ht, Nat.not_le.mp hw]⟩
  · exact .inl ⟨_, execRppush_fits hr (Nat.not_le.mp hw) ht, by
      simp [FaultsIn, show s.toBits ≠ 0#4 from ht]⟩

/-- RPEND completes with BITS at most TO. -/
theorem execRpend_completes {s : State} (hb : ¬ s.toBits.toNat < s.bits.toNat) : ∃ t, execRpend s = .next t := by
  simp only [execRpend, if_neg hb, raise_answers, respond_answers]
  split_ifs <;> exact ⟨_, rfl⟩

theorem settledAt_rpend (s : State) : SettledAt .rpend s := by
  by_cases hr : s.rpe = true
  · exact .inl ⟨_, (if_pos hr).trans (raise_answers ..), by simp [FaultsIn, hr]⟩
  by_cases hb : s.toBits.toNat < s.bits.toNat
  · exact .inr ⟨.negativeShift, (if_neg hr).trans (if_pos hb), by simp [FaultsIn, hr, hb]⟩
  · obtain ⟨t, h⟩ := execRpend_completes hb
    exact .inl ⟨t, h, by simp [FaultsIn, hb]⟩

/-- Every command is settled. -/
theorem settledAt (i : Instr) (s : State) : SettledAt i s := by
  cases i with
  | pmhrp => exact settledAt_pmhrp s
  | enchrp => exact settledAt_enchrp s
  | decode => exact settledAt_decode s
  | rppush c => exact settledAt_rppush c s
  | rpend => exact settledAt_rpend s
  | srst => exact .inl ⟨_, execSrst_eq s, by simp [FaultsIn]⟩
  | sbclr => exact .inl ⟨_, execSbclr_eq s, by simp [FaultsIn]⟩
  | sbput c => exact .inl ⟨_, execSbput_eq c s, by simp [FaultsIn]⟩
  | rpcfg f w p => exact .inl ⟨_, execRpcfg_eq f w p s, by simp [FaultsIn]⟩
  | pminit => exact .inl ⟨_, execPminit_eq s, by simp [FaultsIn]⟩
  | pmstep x => exact .inl ⟨_, execPmstep_eq x s, by simp [FaultsIn]⟩
  | pmrd => exact .inl ⟨_, execPmrd_eq s, by simp [FaultsIn]⟩
  | pmvfy => exact .inl ⟨_, execPmvfy_eq s, by simp [FaultsIn]⟩
  | cxenc x => exact .inl ⟨_, execCxenc_eq x s, by simp [FaultsIn]⟩
  | cxdec c => exact .inl ⟨_, execCxdec_eq c s, by simp [FaultsIn]⟩
  | encsym x => exact .inl ⟨_, execEncsym_eq x s, by simp [FaultsIn]⟩
  | encfin => exact .inl ⟨_, execEncfin_eq s, by simp [FaultsIn]⟩

/-- Settles O17: each command completes outside the states `FaultsIn` names, and stops with that fault in them. -/
theorem faultsAreRaisedExactlyOutsideTheRanges : Obligations.FaultsAreRaisedExactlyOutsideTheRanges := by
  intro i s
  obtain ⟨t, h, hnot⟩ | ⟨f, h, hf⟩ := settledAt i s
  · exact ⟨fun f => ⟨fun e => by simp [h] at e, fun e => absurd e (hnot f)⟩, fun r => by simp [h]⟩
  · refine ⟨fun g => ⟨fun e => (hf g).mpr ?_, fun e => ?_⟩, fun r => by simp [h]⟩
    · rw [h] at e; exact (Host.Outcome.fault.inj e).symm
    · rw [h, (hf g).mp e]

/-- In the ranges of R38 every command completes. -/
theorem exec_completes {s : State} (hs : s.RegsLegal) (i : Instr) : ∃ t, exec i s = .next t := by
  obtain ⟨t, h, -⟩ | ⟨f, h, hf⟩ := settledAt i s
  · exact ⟨t, h⟩
  · have hlen : s.len.toNat ≤ 91 := hs.lenLegal
    have hto := hs.to_pos
    obtain ⟨-, hl, -⟩ | ⟨-, ht, -⟩ | ⟨-, hb, -⟩ := (hf f).mpr rfl
    · omega
    · simp [ht] at hto
    · exact absurd hs.bitsBelow (by omega)

end Sys2Proof.Machine
end

section
/-! SUPPORT. What each command leaves unchanged (spec/10_state.md R32). -/

namespace Sys2Proof.Machine

open Sys2Proof

/-- RPPUSH and RPEND keep the configuration. -/
theorem exec_keeps_config {i : Instr} {s t : State} (hi : EmitsValues i) (h : exec i s = .next t) :
    t.fromBits = s.fromBits ∧ t.toBits = s.toBits ∧ t.pad = s.pad := by
  obtain ⟨c, rfl⟩ | rfl := hi
  · obtain ⟨-, rfl⟩ | ⟨-, -, rfl⟩ | ⟨-, -, -, _, _, -, -, rfl⟩ := execRppush_next h <;> exact ⟨rfl, rfl, rfl⟩
  · obtain ⟨bs, st, v, rfl⟩ := exec_rpend_next h
    exact ⟨rfl, rfl, rfl⟩

/-- Settles O48: by what a repacker command leaves. -/
theorem repackerFrame : Obligations.RepackerFrame := by
  intro i s t hi h
  refine ⟨?_, fun hcfg => ?_, ?_⟩
  · obtain ⟨r, bs, st, v, rfl⟩ := exec_repacker_next hi h; rfl
  · cases i with
    | rpcfg f w p => exact absurd rfl (hcfg f w p)
    | rppush c => exact exec_keeps_config (.inl ⟨c, rfl⟩) h
    | rpend => exact exec_keeps_config (.inr rfl) h
    | _ => cases hi
  · obtain ⟨r, bs, st, v, rfl⟩ := exec_repacker_next hi h; exact fun a => rfl

/-- A command that writes CHK at most leaves every other register and every cell. -/
theorem exec_chk_frame {i : Instr} {s t : State} (hi : chkCommand i = true) (h : exec i s = .next t) :
    t = { s with chk := t.chk, sent := t.sent } ∧ ∀ a, t.cell a = s.cell a := by
  obtain ⟨c, bs, st, v, rfl⟩ := exec_chk_next hi h
  exact ⟨rfl, fun a => rfl⟩

/-- Settles O51: the four are among the commands that write CHK at most. -/
theorem encoderAndDecoderFrame : Obligations.EncoderAndDecoderFrame := by
  intro i s t hi h
  obtain rfl | ⟨x, rfl⟩ | rfl | rfl := hi <;> exact exec_chk_frame rfl h

/-- PMRD, PMVFY, CXENC and CXDEC answer from the state and keep CHK. -/
theorem exec_keeps_chk {i : Instr} {s t : State}
    (hi : i = .pmrd ∨ i = .pmvfy ∨ (∃ x, i = .cxenc x) ∨ (∃ c, i = .cxdec c)) (h : exec i s = .next t) :
    t.chk = s.chk := by
  obtain rfl | rfl | ⟨x, rfl⟩ | ⟨c, rfl⟩ := hi
  · obtain rfl := next_unique h (execPmrd_eq s); rfl
  · obtain rfl := next_unique h (execPmvfy_eq s); rfl
  · obtain rfl := next_unique h (execCxenc_eq x s); rfl
  · obtain rfl := next_unique h (execCxdec_eq c s)
    split <;> rfl

/-- Settles O49: the seven are among the commands that write CHK at most, and none of them emits. -/
theorem polymodAndCharacterFrame : Obligations.PolymodAndCharacterFrame := by
  intro i s t hi h
  have hchk : chkCommand i = true := by
    obtain rfl | ⟨x, rfl⟩ | rfl | rfl | rfl | ⟨x, rfl⟩ | ⟨c, rfl⟩ := hi <;> rfl
  have hchars : ¬ EmitsChars i := by
    obtain rfl | ⟨x, rfl⟩ | rfl | rfl | rfl | ⟨x, rfl⟩ | ⟨c, rfl⟩ := hi <;> simp [EmitsChars]
  have hvalues : ¬ EmitsValues i := by
    obtain rfl | ⟨x, rfl⟩ | rfl | rfl | rfl | ⟨x, rfl⟩ | ⟨c, rfl⟩ := hi <;> simp [EmitsValues]
  obtain ⟨hregs, hcells⟩ := exec_chk_frame hchk h
  exact ⟨hregs, exec_out_of_silent hchars hvalues h, fun hi' => exec_keeps_chk hi' h, hcells⟩

/-- A cell SBPUT does not store to reads as before. -/
theorem exec_sbput_cell {c : Byte} {s t : State} {a : Nat} (h : exec (.sbput c) s = .next t)
    (ha : ¬ (a = s.len.toNat ∧ s.len.toNat < 90)) : t.cell a = s.cell a := by
  obtain e | ⟨_, -, hl, e⟩ := exec_sb h
  · rw [State.cell, e, State.cell]
  · rw [State.cell, e, Memory.read_write, if_neg fun he => ha ⟨he, hl⟩, State.cell]

/-- Settles O50: by what each of the three leaves. -/
theorem bufferFrame : Obligations.BufferFrame := by
  refine ⟨fun s t h => ?_, fun s t h => ?_, fun c s t h => ⟨?_, ?_, fun a ha => exec_sbput_cell h ha, ?_⟩⟩
  · have hout := exec_out_of_silent (by simp [EmitsChars]) (by simp [EmitsValues]) h
    obtain rfl := exec_sbclr_next h
    exact ⟨rfl, hout, fun a => rfl⟩
  · have hout := exec_out_of_silent (by simp [EmitsChars]) (by simp [EmitsValues]) h
    obtain rfl := exec_srst_next h
    exact ⟨hout, rfl, fun a => rfl⟩
  · obtain ⟨-, rfl⟩ | ⟨-, rfl⟩ := exec_sbput_next h <;> rfl
  · exact exec_out_of_silent (by simp [EmitsChars]) (by simp [EmitsValues]) h
  · obtain ⟨-, rfl⟩ | ⟨-, rfl⟩ := exec_sbput_next h <;> simp +contextual

end Sys2Proof.Machine
end

section
/-! SUPPORT. States the outside cannot tell apart (spec/10_state.md R31, spec/40_repacker.md R117): stale bits of ACC,
cells past the string and what was sent change nothing the block does. -/

namespace Sys2Proof.Machine

open Sys2Proof

/-- The same answer keeps two states alike. -/
theorem State.Alike.answers {u u' : State} (h : u.Alike u') (bs : List Beat) (st : Status) (v : Value) :
    (u.answers bs st v).Alike (u'.answers bs st v) := { h with }

/-- Alike states hold the same in the checksum and the buffer, as far as a command reads. -/
theorem State.Alike.readsAs {s s' : State} (h : s.Alike s') : s'.ReadsAs s :=
  ⟨h.chk.symm, h.len.symm, h.np.symm, h.low.symm, h.upp.symm, h.string.symm⟩

/-- From `s'` command `i` sends what it sent from `s` to `t`, and ends alike. -/
def AnswersAlike (i : Instr) (s s' t : State) : Prop :=
  ∃ (t' : State) (o : List Output), exec i s' = .next t' ∧ t.sent = s.sent ++ o ∧ t'.sent = s'.sent ++ o ∧ t.Alike t'

theorem answersAlike_of {i : Instr} {s s' u u' : State} {bs : List Beat} {st : Status} {v : Value}
    (he : exec i s' = .next (u'.answers bs st v)) (hs : u.sent = s.sent) (hs' : u'.sent = s'.sent)
    (ha : u.Alike u') : AnswersAlike i s s' (u.answers bs st v) :=
  ⟨_, bs.map Output.beat ++ [.response ⟨st, v⟩], he, by simp [hs], by simp [hs'], ha.answers ..⟩

/-! ## The repacker -/

/-- The loop reads no bit of the accumulator from position `n` up, `n` being the number of valid bits or more. -/
theorem slices_congr {acc acc' n toW : Nat} (h : acc % 2 ^ n = acc' % 2 ^ n) (fuel bits : Nat) (hb : bits ≤ n) :
    slices acc toW fuel bits = slices acc' toW fuel bits := by
  induction fuel generalizing bits with
  | zero => rfl
  | succ fuel ih =>
    simp only [slices]
    split
    · rename_i hle
      have htop : topBits acc (bits - toW) toW = topBits acc' (bits - toW) toW := by
        rw [← topBits_mod acc (n := n) (by omega), h, topBits_mod acc' (by omega)]
      rw [ih (bits - toW) (by omega), htop]
    · rfl

section
variable {s s' : State} (hs : s.RegsLegal) (ha : s.Alike s')
include hs ha

/-- The valid bits after a push depend on the valid bits before it. -/
theorem State.Alike.pushed {c : Byte} (hw : c.toNat < 2 ^ s.fromBits.toNat) :
    s.pushed c % 2 ^ (s.bits.toNat + s.fromBits.toNat) = s'.pushed c % 2 ^ (s.bits.toNat + s.fromBits.toNat) := by
  have hb := hs.bitsBelow
  have hto := hs.to_le
  have hfrom := hs.from_le
  have hwidth : s.bits.toNat + s.fromBits.toNat ≤ accW := by rw [accW]; omega
  have hacc : s.acc.toNat % 2 ^ s.bits.toNat = s'.acc.toNat % 2 ^ s.bits.toNat := by
    have e := ha.acc
    rwa [State.validAcc, State.validAcc, ← ha.bits] at e
  rw [State.pushed, State.pushed, ← ha.fromBits, shiftIn_mod hw hwidth, shiftIn_mod hw hwidth, hacc]

theorem State.Alike.pushSlices {c : Byte} (hw : c.toNat < 2 ^ s.fromBits.toNat) :
    s'.pushSlices c = s.pushSlices c := by
  rw [State.pushSlices, State.pushSlices, ← ha.toBits, ← ha.bits, ← ha.fromBits]
  exact (slices_congr (ha.pushed hs hw) _ _ le_rfl).symm

/-- The leftover RPEND looks at depends on the valid bits only. -/
theorem State.Alike.leftAligned :
    leftAligned s'.acc.toNat s.bits.toNat s.toBits.toNat = leftAligned s.acc.toNat s.bits.toNat s.toBits.toNat := by
  have hb := Nat.le_of_lt hs.bitsBelow
  have e := ha.acc
  rw [State.validAcc, State.validAcc, ← ha.bits] at e
  rw [← leftAligned_mod s'.acc.toNat hb, ← e, leftAligned_mod _ hb]

theorem exec_rppush_alike {c : Byte} {t : State} (h : exec (.rppush c) s = .next t) :
    AnswersAlike (.rppush c) s s' t := by
  obtain ⟨hr, rfl⟩ | ⟨hr, hw, rfl⟩ | ⟨hr, hw, ht, -⟩ := execRppush_next h
  · exact answersAlike_of (execRppush_pending (ha.rpe ▸ hr)) rfl rfl ha
  · exact answersAlike_of (u' := { s' with rpe := true }) (execRppush_wide (ha.rpe ▸ hr) (ha.fromBits ▸ hw)) rfl rfl
      { ha with rpe := rfl }
  · obtain rfl := next_unique h (execRppush_fits hr hw ht)
    have he := execRppush_fits (s := s') (c := c) (ha.rpe ▸ hr) (ha.fromBits ▸ hw) (ha.toBits ▸ ht)
    rw [ha.pushSlices hs hw] at he
    refine answersAlike_of he rfl rfl { ha with acc := ?_, bits := rfl }
    have hle : (s.bits.toNat + s.fromBits.toNat) % s.toBits.toNat ≤ s.bits.toNat + s.fromBits.toNat := Nat.mod_le ..
    have hdvd := Nat.pow_dvd_pow 2 hle
    have hlt : ∀ u : State, u.pushed c < 2 ^ 15 := fun u => Nat.mod_lt _ (by decide)
    simp only [State.validAcc, BitVec.toNat_ofNat _ 15, Nat.mod_eq_of_lt (hlt _), State.pushSlices_bits c hs.to_pos]
    rw [← Nat.mod_mod_of_dvd _ hdvd, ha.pushed hs hw, Nat.mod_mod_of_dvd _ hdvd]

theorem exec_rpend_alike {t : State} (h : exec .rpend s = .next t) : AnswersAlike .rpend s s' t := by
  obtain ⟨bs, st, v, hsame⟩ := execRpend_of_next h
  obtain rfl := next_unique h (hsame s rfl rfl rfl rfl rfl rfl)
  have he := hsame s' ha.rpe.symm ha.pad.symm ha.bits.symm ha.fromBits.symm ha.toBits.symm (ha.leftAligned hs)
  exact answersAlike_of he rfl rfl { ha with acc := rfl, bits := rfl, rpe := rfl }

end

/-! ## Every command -/

theorem exec_sbput_alike {c : Byte} {s s' t : State} (ha : s.Alike s') (h : exec (.sbput c) s = .next t) :
    AnswersAlike (.sbput c) s s' t := by
  have he : exec (.sbput c) s' = _ := execSbput_eq c s'
  rw [← ha.len] at he
  have hn : ∀ b, (s.np || b) = (s'.np || b) := fun b => by rw [ha.np]
  have hlow : ∀ b, (s.low || b) = (s'.low || b) := fun b => by rw [ha.low]
  have hu : ∀ b, (s.upp || b) = (s'.upp || b) := fun b => by rw [ha.upp]
  obtain ⟨hl, rfl⟩ | ⟨hl, rfl⟩ := exec_sbput_next h
  · rw [if_pos hl] at he
    refine answersAlike_of he rfl rfl { ha with len := rfl, np := hn _, low := hlow _, upp := hu _, string := ?_ }
    calc _ = s.string ++ [c] := s.string_stored c hl
      _ = s'.string ++ [c] := by rw [ha.string]
      _ = _ := by rw [ha.len]; exact (s'.string_stored c (ha.len ▸ hl)).symm
  · rw [if_neg (Nat.not_lt.mpr hl)] at he
    refine answersAlike_of he rfl rfl { ha with len := rfl, np := hn _, low := hlow _, upp := hu _, string := ?_ }
    calc _ = s.string := s.string_dropped c hl
      _ = s'.string := ha.string
      _ = _ := (s'.string_dropped c (ha.len ▸ hl)).symm

/-- Two states with the registers of reset are alike, whatever their cells hold. -/
theorem State.alike_reset (m m' : Memory) (o o' : List Output) (x : List Input) :
    ({ State.reset with sb := m, sent := o, inputs := x } : State).Alike
      { State.reset with sb := m', sent := o', inputs := x } :=
  ⟨rfl, rfl, rfl, rfl, rfl, rfl, rfl, rfl, rfl, rfl, rfl, rfl, rfl⟩

/-- Alike states answer a command alike. -/
theorem exec_alike {i : Instr} {s s' t : State} (hs : s.RegsLegal) (ha : s.Alike s') (h : exec i s = .next t) :
    AnswersAlike i s s' t := by
  obtain hi | hi | rfl | rfl | ⟨c, rfl⟩ := unit_cases i
  · cases i with
    | rpcfg f w p =>
      obtain rfl := next_unique h (execRpcfg_eq f w p s)
      exact answersAlike_of (execRpcfg_eq f w p s') rfl rfl
        { ha with acc := rfl, bits := rfl, fromBits := rfl, toBits := rfl, pad := rfl, rpe := rfl }
    | rppush c => exact exec_rppush_alike hs ha h
    | rpend => exact exec_rpend_alike hs ha h
    | _ => cases hi
  · obtain ⟨c, bs, st, v, hsame⟩ := exec_chk_of_next hi h
    obtain rfl := next_unique h (hsame s (.refl s))
    exact answersAlike_of (hsame s' ha.readsAs) rfl rfl { ha with chk := rfl }
  · obtain rfl := exec_srst_next h
    refine answersAlike_of (execSrst_eq s') rfl rfl ?_
    rw [← ha.inputs]
    exact State.alike_reset ..
  · obtain rfl := exec_sbclr_next h
    refine answersAlike_of (execSbclr_eq s') rfl rfl
      { ha with len := rfl, np := rfl, low := rfl, upp := rfl, string := rfl }
  · exact exec_sbput_alike ha h

/-- Settles O18: by what a step can do, and `exec_alike` for a command. -/
theorem alikeStatesAnswerAlike : Obligations.AlikeStatesAnswerAlike := by
  intro s s' t hs ha h
  have ha' {rest : List Input} : ({ s with inputs := rest } : State).Alike { s' with inputs := rest } :=
    { ha with inputs := rfl }
  obtain ⟨hin, rfl⟩ | ⟨rest, hin, rfl⟩ | ⟨w, rest, hin, ⟨i, hd, -, he⟩ | ⟨e, hd, rfl⟩⟩ := step_cases h <;>
    rw [ha.inputs] at hin
  · exact ⟨s', [], by simp [step, State.takeInput, hin], by simp, by simp, ha⟩
  · exact ⟨{ State.reset with sent := s'.sent, inputs := rest }, [], by simp [step, State.takeInput, hin], by simp,
      by simp, State.alike_reset ..⟩
  · rw [step_command hin hd]
    exact exec_alike (s := { s with inputs := rest }) (hs.withPorts s.sent rest) ha' he
  · refine ⟨_, [.response ⟨.eIllegal, 0⟩], step_illegal hin hd, by simp, by simp, ?_⟩
    exact ha'.answers ..

/-! ## Sequences of commands, and reset (R37) -/

/-- From alike states in the ranges of R38 a sequence of commands completes and sends the same. -/
theorem execAll_alike {is : List Instr} (hw : ∀ i ∈ is, WellFormed i = true) {s s' : State} (hs : s.RegsLegal)
    (ha : s.Alike s') :
    ∃ (t t' : State) (o : List Output), execAll is s = .next t ∧ execAll is s' = .next t' ∧ t.sent = s.sent ++ o ∧
      t'.sent = s'.sent ++ o := by
  induction is generalizing s s' with
  | nil => exact ⟨s, s', [], rfl, rfl, by simp, by simp⟩
  | cons i is ih =>
    obtain ⟨u, hu⟩ := exec_completes hs i
    obtain ⟨u', o, hu', ho, ho', hau⟩ := exec_alike hs ha hu
    have hsu := exec_keeps_regsLegal (hw i (List.mem_cons_self ..)) hs hu
    obtain ⟨t, t', p, ht, ht', hp, hp'⟩ := ih (fun j hj => hw j (List.mem_cons_of_mem _ hj)) hsu hau
    refine ⟨t, t', o ++ p, (execAll_cons hu).trans ht, (execAll_cons hu').trans ht', ?_, ?_⟩
    · rw [hp, ho, List.append_assoc]
    · rw [hp', ho', List.append_assoc]

/-- A step with the reset input on the port. -/
theorem step_reset {s : State} {rest : List Input} (h : s.inputs = .reset :: rest) :
    step s = .next { State.reset with sent := s.sent, inputs := rest } := by
  simp [step, State.takeInput, h]

/-- Settles O9: the reset input and SRST leave reset's registers, and states that differ in their cells only are alike
there. -/
theorem resetValues : Obligations.ResetValues := by
  refine ⟨fun r hr => ?_, fun s rest hin => ⟨_, step_reset hin⟩, fun s => ⟨_, execSrst_eq s⟩, rfl, fun m is hw => ?_⟩
  · obtain rfl | ⟨s, rest, hin, h⟩ | ⟨s, h⟩ := hr
    · decide
    · obtain rfl := next_unique h (step_reset hin)
      exact ⟨rfl, rfl, rfl, rfl, rfl, rfl, rfl, rfl, rfl, rfl, rfl⟩
    · obtain rfl := exec_srst_next h
      exact ⟨rfl, rfl, rfl, rfl, rfl, rfl, rfl, rfl, rfl, rfl, rfl⟩
  · obtain ⟨t, t', o, ht, ht', ho, ho'⟩ := execAll_alike hw State.reset_regsLegal (State.alike_reset [] m [] [] [])
    exact ⟨t, t', ht, ht', ho'.trans ho.symm⟩

end Sys2Proof.Machine
end

section
/-! SUPPORT. Program order (spec/20_memory.md R71): the word of a well-formed command means that command, and a run over
a list of such words is the commands one after another.  Reads of the string buffer have no side effect (R68). -/

namespace Sys2Proof.Machine

open Sys2Proof

/-- The opcode map and the operand's format read back what the encoder wrote (R84). -/
theorem decode_encode {i : Instr} (hw : WellFormed i = true) : decode (encode i) = .ok i := by
  rw [encode, decode_wordOf]
  cases i with
  | rpcfg f t p =>
    obtain ⟨hf, ht⟩ : legalWidth f = true ∧ legalWidth t = true := by simpa [WellFormed] using hw
    refine (formatR_config (fieldOfWidth f) (fieldOfWidth t) p).trans ?_
    rw [widthOfField_fieldOfWidth f hf, widthOfField_fieldOfWidth t ht]
  | pmstep x => exact formatS_sym .pmstep x
  | cxenc x => exact formatS_sym .cxenc x
  | encsym x => exact formatS_sym .encsym x
  | _ => rfl

/-- A step with the word of a well-formed command on the port: the command runs and the rest stays on the port. -/
theorem step_encode {s : State} {i : Instr} {rest : List Input} (hw : WellFormed i = true)
    (hin : s.inputs = .command (encode i) :: rest) : step s = withInputs rest (exec i s) := by
  rw [step_command hin (decode_encode hw), exec_withInputs]

/-- Settles O8, by induction on the commands: the first word's step does what its command does and leaves the others on
the port. -/
theorem commandsTakeEffectInOrder : Obligations.CommandsTakeEffectInOrder := by
  intro is
  induction is with
  | nil => rintro s rest - hin; subst hin; rfl
  | cons i is ih =>
    intro s rest hw hin
    have hstep := step_encode (hw i (List.mem_cons_self ..)) hin
    have hexec := exec_withInputs i s rest
    cases h : exec i s with
    | next u =>
      rw [h] at hstep hexec
      rw [execAll_cons hexec]
      exact (run_next core _ _ _ hstep).trans (ih _ rest (fun j hj => hw j (List.mem_cons_of_mem _ hj)) rfl)
    | fault f =>
      rw [h] at hstep hexec
      rw [execAll, hexec]
      exact run_fault core _ _ _ hstep
    | refused f =>
      rw [h] at hstep hexec
      rw [execAll, hexec]
      exact run_refused core _ _ _ hstep

/-! ## The commands that read the whole string (R68) -/

/-- Settles O52: what a reader sends and puts in CHK depends on LEN, the flags and the string, and it changes none of
these. -/
theorem bufferReadersCanBeRepeated : Obligations.BufferReadersCanBeRepeated := by
  intro i s t hi h
  obtain ⟨oc, bs, st, v, hs⟩ := exec_reader_of_next hi h
  obtain rfl := next_unique h (hs s rfl rfl rfl rfl rfl)
  refine ⟨_, bs.map Output.beat ++ [.response ⟨st, v⟩], hs _ rfl rfl rfl rfl rfl, ?_, ?_, ?_⟩
  · simp
  · simp
  · cases oc <;> rfl

end Sys2Proof.Machine
end

section
/-! SUPPORT. The words the decoder takes (spec/30_encoding.md R84, R85, R89): a word that is taken is the encoder's word
for its command, and a word is illegal by its opcode or by the must-be-zero bits of its format. -/

namespace Sys2Proof

open Sys2Proof.Machine
open Sys2Proof.Laws.Encoding (admits)

/-! ## A word that is taken -/

/-- The opcode and the operand byte of a word that is taken are those of its command, format by format: nothing in
either is ignored. -/
theorem decodeFields_ok {op arg : BitVec 8} {i : Instr} (h : decodeFields op arg = .ok i) :
    opcodeOf i = op ∧ operandByteOf i = arg := by
  unfold decodeFields at h
  split at h
  case h_1 hop | h_2 hop | h_6 hop | h_7 hop | h_9 hop | h_10 hop | h_11 hop | h_14 hop | h_16 hop | h_17 hop =>
    obtain ⟨rfl, rfl⟩ := formatN_ok h
    exact ⟨BitVec.eq_of_toNat_eq hop.symm, rfl⟩
  case h_8 hop | h_12 hop | h_15 hop =>
    obtain ⟨x, rfl, rfl⟩ := formatS_ok h
    exact ⟨BitVec.eq_of_toNat_eq hop.symm, rfl⟩
  case h_3 hop | h_5 hop | h_13 hop =>
    obtain rfl := Except.ok.inj h
    exact ⟨BitVec.eq_of_toNat_eq hop.symm, rfl⟩
  case h_4 hop =>
    obtain ⟨f, t, p, rfl, rfl⟩ := formatR_ok h
    refine ⟨BitVec.eq_of_toNat_eq hop.symm, ?_⟩
    rw [operandByteOf, configByte, fieldOfWidth_widthOfField, fieldOfWidth_widthOfField]
  case h_18 => cases h

/-- The encoder gives back the word that was taken. -/
theorem encode_of_decode {w : CmdWord} {i : Instr} (h : decode w = .ok i) : encode i = w := by
  obtain ⟨hop, harg⟩ := decodeFields_ok h
  rw [encode, hop, harg, wordOf_fields]

/-- Settles O1: the opcode map and the formats read back the encoder's two bytes (`decode_encode`). -/
theorem decodeOfEncodeIsTheCommand : Obligations.DecodeOfEncodeIsTheCommand :=
  fun _ hw => decode_encode hw

/-- Settles O2: by the case of the opcode map that took the word, both its bytes are those of the command. -/
theorem encodeOfDecodeIsTheWord : Obligations.EncodeOfDecodeIsTheWord :=
  fun _ _ h => ⟨decode_wellFormed h, encode_of_decode h⟩

/-- Settles O4: each word is the encoder's word for its command. -/
theorem sampleWordsDecode : Obligations.SampleWordsDecode :=
  ⟨decode_encode (i := .srst) rfl, decode_encode (i := .sbput 0x41) rfl, decode_encode (i := .rpcfg 8 5 true) rfl,
    decode_encode (i := .rpcfg 5 8 false) rfl, decode_encode (i := .rppush 0xFF) rfl,
    decode_encode (i := .pmstep 3) rfl, decode_encode (i := .cxenc 29) rfl, decode_encode (i := .cxdec 0x6C) rfl,
    decode_encode (i := .encsym 31) rfl, decode_encode (i := .decode) rfl⟩

/-! ## A word that is illegal (R89) -/

/-- The opcodes of each format (R84). -/
def opcodesOf : Format → List (BitVec 8)
  | .N => [0x01, 0x10, 0x22, 0x30, 0x32, 0x33, 0x34, 0x50, 0x52, 0x60]
  | .S => [0x31, 0x40, 0x51]
  | .C => [0x11, 0x21, 0x41]
  | .R => [0x20]

theorem Format.exists_iff {p : Format → Prop} : (∃ f, p f) ↔ p .N ∨ p .S ∨ p .C ∨ p .R := by
  refine ⟨fun ⟨f, hf⟩ => ?_, ?_⟩
  · cases f <;> simp [hf]
  · rintro (h | h | h | h) <;> exact ⟨_, h⟩

theorem opcodeOf_mem_opcodesOf (i : Instr) : opcodeOf i ∈ opcodesOf (formatOf i) := by
  cases i <;> simp [opcodeOf, opcodesOf, formatOf]

theorem formatN_error_iff (i : Instr) (arg : BitVec 8) :
    (∃ e, formatN i arg = .error e) ↔ admits .N arg = false := by
  unfold formatN; split <;> simp_all [admits]

theorem formatS_error_iff (f : Sym → Instr) (arg : BitVec 8) :
    (∃ e, formatS f arg = .error e) ↔ admits .S arg = false := by
  unfold formatS; split <;> simp_all [admits]

theorem formatR_error_iff (arg : BitVec 8) : (∃ e, formatR arg = .error e) ↔ admits .R arg = false := by
  unfold formatR; split <;> simp_all [admits]

/-- Under an opcode of the format, the illegal operand bytes are those with a must-be-zero bit of the format set. -/
theorem decodeFields_error_iff_of_mem {f : Format} {op : BitVec 8} (hop : op ∈ opcodesOf f) (arg : BitVec 8) :
    (∃ e, decodeFields op arg = .error e) ↔ admits f arg = false := by
  cases f with
  | N =>
    unfold opcodesOf at hop
    fin_cases hop <;> exact formatN_error_iff _ arg
  | S =>
    unfold opcodesOf at hop
    fin_cases hop <;> exact formatS_error_iff _ arg
  | C =>
    unfold opcodesOf at hop
    fin_cases hop <;> simp [decodeFields, admits]
  | R =>
    obtain rfl := List.mem_singleton.mp hop
    exact formatR_error_iff arg

/-- A word is illegal by its opcode, which no format has, or by an operand byte with a must-be-zero bit of
its opcode's format set. -/
theorem decodeFields_error_iff (op arg : BitVec 8) :
    (∃ e, decodeFields op arg = .error e) ↔
      (¬ ∃ f, op ∈ opcodesOf f) ∨ ∃ f, op ∈ opcodesOf f ∧ admits f arg = false := by
  constructor
  · intro h
    by_cases hop : ∃ f, op ∈ opcodesOf f
    · obtain ⟨f, hf⟩ := hop
      exact .inr ⟨f, hf, (decodeFields_error_iff_of_mem hf arg).mp h⟩
    · exact .inl hop
  · rintro (hop | ⟨f, hf, harg⟩)
    · cases hd : decodeFields op arg with
      | error e => exact ⟨e, rfl⟩
      | ok i => exact absurd ⟨_, (decodeFields_ok hd).1 ▸ opcodeOf_mem_opcodesOf i⟩ hop
    · exact (decodeFields_error_iff_of_mem hf arg).mpr harg

/-- The opcodes of R84, in its order. -/
def assignedOpcodes : List (BitVec 8) :=
  [0x01, 0x10, 0x11, 0x20, 0x21, 0x22, 0x30, 0x31, 0x32, 0x33, 0x34, 0x40, 0x41, 0x50, 0x51, 0x52, 0x60]

theorem mem_assignedOpcodes_iff (op : BitVec 8) : op ∈ assignedOpcodes ↔ ∃ f, op ∈ opcodesOf f := by
  have hperm : assignedOpcodes.Perm (opcodesOf .N ++ (opcodesOf .S ++ (opcodesOf .C ++ opcodesOf .R))) := by decide
  rw [hperm.mem_iff, Format.exists_iff, List.mem_append, List.mem_append, List.mem_append]

theorem argOf_topBits (w : CmdWord) : (argOf w).extractLsb' 5 3 = w.extractLsb' 5 3 := by
  ext i hi
  simp [argOf]

theorem argOf_bitSeven (w : CmdWord) : (argOf w).getLsbD 7 = w.getLsbD 7 := by
  simp [argOf]

/-- Settles O3: the illegal words by `decodeFields_error_iff`, format by format; the step by `step_illegal`. -/
theorem illegalWordsAreRefused : Obligations.IllegalWordsAreRefused := by
  refine ⟨fun w => ?_, ⟨_, rfl⟩, ⟨_, rfl⟩, fun _ _ _ _ hin hd => step_illegal hin hd⟩
  refine (decodeFields_error_iff (opOf w) (argOf w)).trans ?_
  rw [← mem_assignedOpcodes_iff, Format.exists_iff]
  simp only [admits, argOf_topBits, argOf_bitSeven, beq_eq_false_iff_ne, Bool.not_eq_false', reduceCtorEq, and_false,
    false_or]
  simp only [opcodesOf, List.mem_singleton]
  rfl

end Sys2Proof
end

section
/-! SUPPORT. The assembler (spec/30_encoding.md R93; spec/93_implementation_defined.md I12, I13): which operands each
reader takes, and that a mnemonic and its operands make one command. -/

namespace Sys2Proof

open Sys2Proof.Machine

/-! ## One operand -/

/-- A number that is taken under a condition within the width is the value's number. -/
theorem guarded_ofNat_eq_some_iff {k n : Nat} {p : Prop} [Decidable p] {v : BitVec k} (hp : p → n < 2 ^ k) :
    (if p then some (BitVec.ofNat k n) else none) = some v ↔ p ∧ n = v.toNat := by
  rw [Option.ite_none_right_eq_some, Option.some.injEq]
  refine and_congr_right fun h => ?_
  rw [← BitVec.toNat_inj, BitVec.toNat_ofNat, Nat.mod_eq_of_lt (hp h)]

theorem asmByte_eq_some_iff {x : AsmOperand} {c : Byte} :
    asmByte x = some c ↔ x = .number c.toNat ∨ ∃ q : Char, q.toNat < 128 ∧ q.toNat = c.toNat ∧ x = .quoted q := by
  cases x with
  | number n =>
    have hn : n = c.toNat → n < 256 := fun h => h ▸ c.isLt
    simpa [asmByte] using (guarded_ofNat_eq_some_iff id).trans (and_iff_right_of_imp hn)
  | quoted q =>
    have hq : q.toNat < 128 → q.toNat < 2 ^ 8 := fun h => by omega
    simpa [asmByte, ← and_assoc] using guarded_ofNat_eq_some_iff (v := c) hq

theorem asmSym_eq_some_iff {x : AsmOperand} {s : Sym} : asmSym x = some s ↔ x = .number s.toNat := by
  cases x with
  | number n =>
    have hn : n = s.toNat → n < 32 := fun h => h ▸ s.isLt
    simpa [asmSym] using (guarded_ofNat_eq_some_iff id).trans (and_iff_right_of_imp hn)
  | quoted q => simp [asmSym]

theorem asmWidth_eq_some_iff {x : AsmOperand} {w : BitVec 4} :
    asmWidth x = some w ↔ legalWidth w = true ∧ x = .number w.toNat := by
  cases x with
  | number n =>
    have hn : 1 ≤ n ∧ n ≤ 8 → n < 2 ^ 4 := fun h => by omega
    rw [legalWidth_iff, asmWidth, guarded_ofNat_eq_some_iff hn, AsmOperand.number.injEq]
    exact and_congr_left fun h => h ▸ Iff.rfl
  | quoted q => simp [asmWidth]

theorem asmPad_eq_some_iff {x : AsmOperand} {p : Bool} : asmPad x = some p ↔ x = .number p.toNat := by
  cases x with
  | number n => cases p <;> simp [asmPad] <;> omega
  | quoted q => simp [asmPad]

/-! ## A command from its mnemonic and operands -/

/-- The operands are read, each by the reader of its kind, as the values the command holds. -/
def OperandsRead (ops : List AsmOperand) : Instr → Prop
  | .sbput c | .rppush c | .cxdec c => ∃ x, ops = [x] ∧ asmByte x = some c
  | .pmstep s | .cxenc s | .encsym s => ∃ x, ops = [x] ∧ asmSym x = some s
  | .rpcfg f t p => ∃ x y z, ops = [x, y, z] ∧ asmWidth x = some f ∧ asmWidth y = some t ∧ asmPad z = some p
  | _ => ops = []

theorem assemble_eq_some_iff {m : String} {ops : List AsmOperand} {i : Instr} :
    assemble m ops = some i ↔ m = mnemonicOf i ∧ OperandsRead ops i := by
  constructor
  · intro h
    unfold assemble at h
    split at h
    · split_ifs at h <;> cases h <;> exact ⟨by assumption, rfl⟩
    · split_ifs at h
      all_goals
        obtain ⟨c, hc, rfl⟩ := Option.map_eq_some_iff.mp h
        exact ⟨by assumption, _, rfl, hc⟩
    · split_ifs at h with hm
      simp only [Option.bind_eq_bind, Option.bind_eq_some_iff, Option.pure_def, Option.some.injEq] at h
      obtain ⟨f, hf, t, ht, p, hp, rfl⟩ := h
      exact ⟨hm, _, _, _, rfl, hf, ht, hp⟩
    · cases h
  · rintro ⟨rfl, h⟩
    cases i with
    | sbput c | rppush c | cxdec c => obtain ⟨x, rfl, hx⟩ := h; simp [assemble, mnemonicOf, hx]
    | pmstep s | cxenc s | encsym s => obtain ⟨x, rfl, hx⟩ := h; simp [assemble, mnemonicOf, hx]
    | rpcfg f t p => obtain ⟨x, y, z, rfl, hf, ht, hp⟩ := h; simp [assemble, mnemonicOf, hf, ht, hp]
    | _ => obtain rfl := h; rfl

theorem byteOperand_iff {ops : List AsmOperand} {c : Byte} :
    (∃ x, ops = [x] ∧ asmByte x = some c) ↔
      ops = [.number c.toNat] ∨ ∃ q : Char, q.toNat < 128 ∧ q.toNat = c.toNat ∧ ops = [.quoted q] := by
  simp only [asmByte_eq_some_iff]
  constructor
  · rintro ⟨x, rfl, rfl | ⟨q, h, hq, rfl⟩⟩
    · exact .inl rfl
    · exact .inr ⟨q, h, hq, rfl⟩
  · rintro (rfl | ⟨q, h, hq, rfl⟩)
    · exact ⟨_, rfl, .inl rfl⟩
    · exact ⟨_, rfl, .inr ⟨q, h, hq, rfl⟩⟩

theorem symOperand_iff {ops : List AsmOperand} {s : Sym} :
    (∃ x, ops = [x] ∧ asmSym x = some s) ↔ ops = [.number s.toNat] := by
  simp [asmSym_eq_some_iff]

theorem configOperands_iff {ops : List AsmOperand} {f t : BitVec 4} {p : Bool} :
    OperandsRead ops (.rpcfg f t p) ↔
      WellFormed (.rpcfg f t p) = true ∧ ops = [.number f.toNat, .number t.toNat, .number p.toNat] := by
  simp only [OperandsRead, asmWidth_eq_some_iff, asmPad_eq_some_iff, WellFormed, Bool.and_eq_true]
  constructor
  · rintro ⟨_, _, _, rfl, ⟨hf, rfl⟩, ⟨ht, rfl⟩, rfl⟩
    exact ⟨⟨hf, ht⟩, rfl⟩
  · rintro ⟨⟨hf, ht⟩, rfl⟩
    exact ⟨_, _, _, rfl, ⟨hf, rfl⟩, ⟨ht, rfl⟩, rfl⟩

/-- What the assembler accepts is a well-formed command of the mnemonic. -/
theorem assemble_wellFormed {m : String} {ops : List AsmOperand} {i : Instr} (h : assemble m ops = some i) :
    WellFormed i = true ∧ mnemonicOf i = m := by
  obtain ⟨rfl, ho⟩ := assemble_eq_some_iff.mp h
  refine ⟨?_, rfl⟩
  cases i with
  | rpcfg f t p => exact (configOperands_iff.mp ho).1
  | _ => rfl

/-- The numbers a command holds, in the order of its operands. -/
def numbersOf : Instr → List Nat
  | .sbput c | .rppush c | .cxdec c => [c.toNat]
  | .pmstep s | .cxenc s | .encsym s => [s.toNat]
  | .rpcfg f t p => [f.toNat, t.toNat, p.toNat]
  | _ => []

/-- A well-formed command is made from its own numbers. -/
theorem assemble_numbersOf {i : Instr} (hw : WellFormed i = true) :
    assemble (mnemonicOf i) ((numbersOf i).map .number) = some i := by
  refine assemble_eq_some_iff.mpr ⟨rfl, ?_⟩
  cases i with
  | sbput c | rppush c | cxdec c => exact byteOperand_iff.mpr (.inl rfl)
  | pmstep s | cxenc s | encsym s => exact symOperand_iff.mpr rfl
  | rpcfg f t p => exact configOperands_iff.mpr ⟨hw, rfl⟩
  | _ => rfl

/-! ## The numbers each operand takes -/

theorem assemble_byte_number {m : String} (hm : m ∈ ["SBPUT", "RPPUSH", "CXDEC"]) (n : Nat) :
    (∃ i, assemble m [.number n] = some i) ↔ n < 256 := by
  simp only [List.mem_cons, List.not_mem_nil, or_false] at hm
  rcases hm with rfl | rfl | rfl <;> simp [assemble, asmByte]

theorem assemble_sym_number {m : String} (hm : m ∈ ["PMSTEP", "CXENC", "ENCSYM"]) (n : Nat) :
    (∃ i, assemble m [.number n] = some i) ↔ n < 32 := by
  simp only [List.mem_cons, List.not_mem_nil, or_false] at hm
  rcases hm with rfl | rfl | rfl <;> simp [assemble, asmSym]

theorem assemble_config_numbers (f t p : Nat) :
    (∃ i, assemble "RPCFG" [.number f, .number t, .number p] = some i) ↔
      (1 ≤ f ∧ f ≤ 8) ∧ (1 ≤ t ∧ t ≤ 8) ∧ p < 2 := by
  constructor
  · rintro ⟨i, h⟩
    simp only [assemble, if_pos, Option.bind_eq_bind, Option.bind_eq_some_iff, asmWidth, asmPad,
      Option.ite_none_right_eq_some] at h
    obtain ⟨_, ⟨hf, -⟩, _, ⟨ht, -⟩, _, ⟨hp, -⟩, -⟩ := h
    exact ⟨hf, ht, hp⟩
  · rintro ⟨hf, ht, hp⟩
    exact ⟨_, by simp only [assemble, asmWidth, asmPad, if_pos hf, if_pos ht, if_pos hp]; rfl⟩

/-- Settles O5: `assemble_eq_some_iff` inverts the assembler, and each reader takes exactly the value's own number. -/
theorem assemblerMakesTheWellFormedCommands : Obligations.AssemblerMakesTheWellFormedCommands := by
  refine ⟨fun _ _ _ => assemble_wellFormed, fun i hw => ⟨numbersOf i, assemble_numbersOf hw⟩,
    fun _ => assemble_byte_number, fun _ => assemble_sym_number, assemble_config_numbers, fun m ops i hw => ?_⟩
  refine assemble_eq_some_iff.trans (and_congr_right fun _ => ?_)
  cases i with
  | sbput c | rppush c | cxdec c => exact byteOperand_iff
  | pmstep s | cxenc s | encsym s => exact symOperand_iff
  | rpcfg f t p => exact configOperands_iff.trans (and_iff_right hw)
  | _ => exact Iff.rfl

end Sys2Proof
end

section
/-! SUPPORT. REPACK as one big-endian bit string cut anew (spec/20_memory.md R63; spec/40_repacker.md R110, R111, R117,
R118): the number a list of values makes, the groups a number is cut into, and that the loop of R111 computes them. -/

namespace Sys2Proof.Machine

open Sys2Proof

/-! ## Values written one after another -/

/-- The number `n` with the values `d`, of `w` bits each, written after it. -/
def bigEndian (w n : Nat) (d : List Nat) : Nat := d.foldl (fun n v => n * 2 ^ w + v) n

@[simp] theorem bigEndian_nil (w n : Nat) : bigEndian w n [] = n := rfl

@[simp] theorem bigEndian_cons (w n v : Nat) (d : List Nat) :
    bigEndian w n (v :: d) = bigEndian w (n * 2 ^ w + v) d := rfl

@[simp] theorem bigEndian_append (w n : Nat) (d e : List Nat) :
    bigEndian w n (d ++ e) = bigEndian w (bigEndian w n d) e := List.foldl_append ..

/-- A value of `w` bits written after a number: the value comes off again, and the number is left. -/
theorem written_div_mod {w n v : Nat} (hv : v < 2 ^ w) :
    (n * 2 ^ w + v) / 2 ^ w = n ∧ (n * 2 ^ w + v) % 2 ^ w = v := by
  rw [Nat.mul_comm, Nat.mul_add_div (Nat.two_pow_pos w), Nat.mul_add_mod, Nat.div_eq_of_lt hv, Nat.mod_eq_of_lt hv]
  exact ⟨Nat.add_zero n, rfl⟩

theorem bigEndian_lt {w : Nat} {d : List Nat} (hd : ∀ v ∈ d, v < 2 ^ w) {n m : Nat} (hn : n < 2 ^ m) :
    bigEndian w n d < 2 ^ (m + d.length * w) := by
  induction d generalizing n m with
  | nil => simpa using hn
  | cons v d ih =>
    have hv := hd v (List.mem_cons_self ..)
    have hnv : n * 2 ^ w + v < 2 ^ (m + w) := by
      calc n * 2 ^ w + v < (n + 1) * 2 ^ w := by rw [Nat.succ_mul]; omega
        _ ≤ 2 ^ m * 2 ^ w := Nat.mul_le_mul_right _ hn
        _ = 2 ^ (m + w) := (Nat.pow_add ..).symm
    have h := ih (fun u hu => hd u (List.mem_cons_of_mem _ hu)) hnv
    rwa [bigEndian_cons, List.length_cons, Nat.succ_mul, Nat.add_comm (d.length * w) w, ← Nat.add_assoc]

/-! ## A number cut into groups -/

/-- The whole groups of `w` bits in a number of `total` bits, from the top down. -/
def groups (w n total : Nat) : List Nat :=
  (List.range (total / w)).map fun k => n / 2 ^ (total - (k + 1) * w) % 2 ^ w

@[simp] theorem groups_length (w n total : Nat) : (groups w n total).length = total / w := by simp [groups]

theorem groups_lt {w n total v : Nat} (h : v ∈ groups w n total) : v < 2 ^ w := by
  obtain ⟨k, -, rfl⟩ := List.mem_map.mp h
  exact Nat.mod_lt _ (Nat.two_pow_pos w)

/-- Fewer bits than a group has make no group. -/
theorem groups_of_lt {w n total : Nat} (h : total < w) : groups w n total = [] := by
  rw [groups, Nat.div_eq_of_lt h, List.range_zero, List.map_nil]

theorem groups_self {w : Nat} (hw : 0 < w) (n : Nat) : groups w n w = [n % 2 ^ w] := by
  simp [groups, Nat.div_self hw]

/-- Cutting may stop between groups: the bits left over stay in front of those that follow. -/
theorem groups_add {w : Nat} (hw : 0 < w) (n total m : Nat) :
    groups w n (total + m) = groups w (n / 2 ^ m) total ++ groups w n (total % w + m) := by
  have hsplit : total = total / w * w + total % w := (Nat.div_add_mod' total w).symm
  have hcount : (total + m) / w = total / w + (total % w + m) / w := by
    conv_lhs => rw [hsplit, Nat.add_assoc, Nat.add_comm, Nat.add_mul_div_right _ _ hw]
    rw [Nat.add_comm]
  rw [groups, hcount, List.range_add, List.map_append, List.map_map]
  congr 1
  · refine List.map_congr_left fun k hk => ?_
    have hle : (k + 1) * w ≤ total / w * w := Nat.mul_le_mul_right w (List.mem_range.mp hk)
    rw [Nat.div_div_eq_div_mul, ← Nat.pow_add, show total + m - (k + 1) * w = m + (total - (k + 1) * w) by omega]
  · refine List.map_congr_left fun k _ => ?_
    have hpos : total + m - (total / w + k + 1) * w = total % w + m - (k + 1) * w := by
      rw [Nat.add_assoc, Nat.add_mul]; omega
    rw [Function.comp_apply, hpos]

/-- The loop of R111 and R114 cuts the valid bits into groups. -/
theorem slices_eq_groups {w : Nat} (hw : 0 < w) (acc bits : Nat) :
    slices acc w bits bits = (groups w acc bits, bits % w) := by
  rw [slices_eq acc hw bits bits le_rfl, groups]
  simp only [topBits, Nat.shiftRight_eq_div_pow]

/-- The groups are cut from the low `total` bits only. -/
theorem groups_congr {w n n' total : Nat} (hw : 0 < w) (h : n % 2 ^ total = n' % 2 ^ total) :
    groups w n total = groups w n' total := by
  have hs := slices_congr (toW := w) h total total le_rfl
  rw [slices_eq_groups hw, slices_eq_groups hw] at hs
  exact (Prod.mk.inj hs).1

/-- Cutting at the widths the values were written with gives the values back. -/
theorem groups_bigEndian {w : Nat} (hw : 0 < w) (d : List Nat) (hd : ∀ v ∈ d, v < 2 ^ w) :
    groups w (bigEndian w 0 d) (d.length * w) = d := by
  induction d using List.reverseRecOn with
  | nil => simp [groups]
  | append_singleton d v ih =>
    have hv : v < 2 ^ w := hd v (by simp)
    obtain ⟨hdiv, hmod⟩ := written_div_mod (n := bigEndian w 0 d) hv
    have ih := ih fun u hu => hd u (by simp [hu])
    rw [bigEndian_append, bigEndian_cons, bigEndian_nil, List.length_append, List.length_singleton, Nat.add_mul,
      Nat.one_mul, groups_add hw, hdiv, ih, Nat.mul_mod_left, Nat.zero_add, groups_self hw, hmod]

/-- The groups of `k * w` bits, written one after another, are those bits. -/
theorem bigEndian_groups {w : Nat} (hw : 0 < w) (n k : Nat) :
    bigEndian w 0 (groups w n (k * w)) = n % 2 ^ (k * w) := by
  induction k generalizing n with
  | zero => simp [groups, Nat.mod_one]
  | succ k ih =>
    rw [Nat.succ_mul, groups_add hw, Nat.mul_mod_left, Nat.zero_add, groups_self hw, bigEndian_append, ih,
      bigEndian_cons, bigEndian_nil, Nat.add_comm (k * w) w, Nat.pow_add, Nat.mod_mul, Nat.mul_comm, Nat.add_comm]

/-! ## The loop of R111 -/

/-- The valid bits of the accumulator, `bits` of them, are the low bits of the number read so far. -/
theorem shiftIn_follows {width acc fromW bits v n : Nat} (hv : v < 2 ^ fromW) (hw : bits + fromW ≤ width)
    (h : acc % 2 ^ bits = n % 2 ^ bits) :
    shiftIn width acc fromW v % 2 ^ (bits + fromW) = (n * 2 ^ fromW + v) % 2 ^ (bits + fromW) := by
  obtain ⟨hdiv, hmod⟩ := written_div_mod (n := n) hv
  rw [shiftIn_mod hv hw, h, Nat.add_comm bits fromW, Nat.pow_add, Nat.mod_mul, hdiv, hmod, Nat.mul_comm, Nat.add_comm]

/-- One pass over a value in range. -/
theorem repackLoop_cons {width fromW toW v : Nat} (hv : v < 2 ^ fromW) (d : List Nat) (acc bits : Nat)
    (ret : List Nat) :
    repackLoop width fromW toW (v :: d) acc bits ret =
      repackLoop width fromW toW d (shiftIn width acc fromW v)
        (slices (shiftIn width acc fromW v) toW (bits + fromW) (bits + fromW)).2
        (ret ++ (slices (shiftIn width acc fromW v) toW (bits + fromW) (bits + fromW)).1) :=
  if_neg (Nat.not_le.mpr hv)

/-- The loop over the data, entered with the number `n` of `total` bits read and cut: it ends with the data read after
`n` and all cut, and the accumulator holding the bits left over. -/
theorem repackLoop_eq {width fromW toW : Nat} (hto : 0 < toW) (hw : fromW + toW - 1 ≤ width) {d : List Nat}
    (hd : ∀ v ∈ d, v < 2 ^ fromW) {acc n total : Nat} (ha : acc % 2 ^ (total % toW) = n % 2 ^ (total % toW)) :
    ∃ acc', repackLoop width fromW toW d acc (total % toW) (groups toW n total) =
        .ok (acc', (total + d.length * fromW) % toW, groups toW (bigEndian fromW n d) (total + d.length * fromW)) ∧
      acc' % 2 ^ ((total + d.length * fromW) % toW) =
        bigEndian fromW n d % 2 ^ ((total + d.length * fromW) % toW) := by
  induction d generalizing acc n total with
  | nil => exact ⟨acc, by simp [repackLoop], by simpa using ha⟩
  | cons v d ih =>
    have hv := hd v (List.mem_cons_self ..)
    have hleft := Nat.mod_lt total hto
    have hacc := shiftIn_follows hv (by omega : total % toW + fromW ≤ width) ha
    have hnext : (total % toW + fromW) % toW = (total + fromW) % toW := Nat.mod_add_mod ..
    have hcut : groups toW n total ++ groups toW (shiftIn width acc fromW v) (total % toW + fromW) =
        groups toW (n * 2 ^ fromW + v) (total + fromW) := by
      rw [groups_congr hto hacc, groups_add hto _ total fromW, (written_div_mod hv).1]
    have hlow : shiftIn width acc fromW v % 2 ^ ((total + fromW) % toW) =
        (n * 2 ^ fromW + v) % 2 ^ ((total + fromW) % toW) := by
      have hle : (total + fromW) % toW ≤ total % toW + fromW := hnext ▸ Nat.mod_le ..
      have h := congrArg (· % 2 ^ ((total + fromW) % toW)) hacc
      simpa only [Nat.mod_mod_of_dvd _ (Nat.pow_dvd_pow 2 hle)] using h
    have hlen : total + (v :: d).length * fromW = total + fromW + d.length * fromW := by
      rw [List.length_cons, Nat.succ_mul]; omega
    rw [hlen, bigEndian_cons]
    obtain ⟨acc', hloop, hacc'⟩ := ih (fun u hu => hd u (List.mem_cons_of_mem _ hu)) hlow
    refine ⟨acc', ?_, hacc'⟩
    rwa [repackLoop_cons hv, slices_eq_groups hto, hnext, hcut]

/-- A value out of range anywhere ends the loop with its error (R110). -/
theorem repackLoop_wide {width fromW toW : Nat} {d : List Nat} (hd : ∃ v ∈ d, 2 ^ fromW ≤ v) (acc bits : Nat)
    (ret : List Nat) : repackLoop width fromW toW d acc bits ret = .error .invalidInputWidth := by
  induction d generalizing acc bits ret with
  | nil => simp at hd
  | cons v d ih =>
    rw [repackLoop]
    split
    · rfl
    · rename_i hv
      simp only [List.mem_cons, exists_eq_or_imp, hv, false_or] at hd
      exact ih hd ..

theorem repack_wide {fromW toW : Nat} {pad : Bool} {d : List Nat} (hd : ∃ v ∈ d, 2 ^ fromW ≤ v) :
    repack d fromW toW pad = .error .invalidInputWidth := by
  rw [repack, repackWith, repackLoop_wide hd]

/-! ## The end of R111 -/

/-- What R111 and R115 make of the leftover bits: a last value or none, or the strict verdict. -/
def finishRepack (acc bits fromW toW : Nat) (pad : Bool) : Except HsError (List Nat) :=
  if pad then .ok (if 0 < bits then [leftAligned acc bits toW] else [])
  else if fromW ≤ bits ∨ leftAligned acc bits toW ≠ 0 then .error .invalidPadding
  else .ok []

section
variable {acc bits fromW toW : Nat}

theorem finishRepack_pad_pos (h : 0 < bits) :
    finishRepack acc bits fromW toW true = .ok [leftAligned acc bits toW] := by simp [finishRepack, h]

theorem finishRepack_pad_zero : finishRepack acc 0 fromW toW true = .ok [] := rfl

theorem finishRepack_strict_bad (h : fromW ≤ bits ∨ leftAligned acc bits toW ≠ 0) :
    finishRepack acc bits fromW toW false = .error .invalidPadding := if_pos h

theorem finishRepack_strict_clean (hf : bits < fromW) (hl : leftAligned acc bits toW = 0) :
    finishRepack acc bits fromW toW false = .ok [] :=
  if_neg (not_or.mpr ⟨Nat.not_le.mpr hf, not_not.mpr hl⟩)

end

theorem repackWith_of_loop {width fromW toW acc bits : Nat} {pad : Bool} {d ret : List Nat}
    (h : repackLoop width fromW toW d 0 0 [] = .ok (acc, bits, ret)) :
    repackWith width d fromW toW pad = (finishRepack acc bits fromW toW pad).map (ret ++ ·) := by
  unfold repackWith finishRepack
  rw [h]
  cases pad with
  | true => by_cases hb : 0 < bits <;> simp [hb, Except.map]
  | false =>
    by_cases hb : fromW ≤ bits
    · simp [hb, Except.map]
    · by_cases hl : leftAligned acc bits toW = 0 <;> simp [hb, hl, Except.map]

theorem leftAligned_eq_mul (acc bits toW : Nat) : leftAligned acc bits toW = acc * 2 ^ (toW - bits) % 2 ^ toW := by
  rw [leftAligned, Nat.shiftLeft_eq]

/-- The leftover, left-aligned, is a number: the valid bits with zeros after them. -/
theorem leftAligned_eq (acc : Nat) {bits toW : Nat} (h : bits ≤ toW) :
    leftAligned acc bits toW = acc % 2 ^ bits * 2 ^ (toW - bits) := by
  obtain ⟨k, rfl⟩ := Nat.exists_eq_add_of_le h
  rw [leftAligned_eq_mul, Nat.add_sub_cancel_left, Nat.pow_add, Nat.mul_mod_mul_right]

/-- REPACK of values in range: the groups of the number they make, and what its leftover bits give. -/
theorem repackWith_eq {width fromW toW : Nat} (hto : 0 < toW) (hw : fromW + toW - 1 ≤ width) (pad : Bool) {d : List Nat}
    (hd : ∀ v ∈ d, v < 2 ^ fromW) :
    repackWith width d fromW toW pad =
      (finishRepack (bigEndian fromW 0 d) (d.length * fromW % toW) fromW toW pad).map
        (groups toW (bigEndian fromW 0 d) (d.length * fromW) ++ ·) := by
  obtain ⟨acc, hloop, hacc⟩ := repackLoop_eq hto hw hd (acc := 0) (n := 0) (total := 0) rfl
  simp only [Nat.zero_add, Nat.zero_mod, groups_of_lt hto] at hloop hacc
  have hleft := (Nat.mod_lt (d.length * fromW) hto).le
  rw [repackWith_of_loop hloop, finishRepack, finishRepack, leftAligned_eq acc hleft, leftAligned_eq _ hleft, hacc]

/-- The last value, where there is one, is in range. -/
theorem finishRepack_lt {acc bits fromW toW v : Nat} {pad : Bool} {l : List Nat}
    (h : finishRepack acc bits fromW toW pad = .ok l) (hv : v ∈ l) : v < 2 ^ toW := by
  unfold finishRepack at h
  split_ifs at h with _ hb <;> obtain rfl := Except.ok.inj h
  · exact List.mem_singleton.mp hv ▸ leftAligned_lt ..
  all_goals simp at hv

/-- Padding is the data with `p` zero bits written after it, `p` being what fills the last group. -/
theorem repackWith_pad {width fromW toW p : Nat} (hw : fromW + toW - 1 ≤ width) {d : List Nat}
    (hd : ∀ v ∈ d, v < 2 ^ fromW) (hp : p < toW) (hfill : (d.length * fromW + p) % toW = 0) :
    repackWith width d fromW toW true =
      .ok (groups toW (bigEndian fromW 0 d * 2 ^ p) (d.length * fromW + p)) := by
  have hto : 0 < toW := Nat.zero_lt_of_lt hp
  rw [repackWith_eq hto hw true hd, groups_add hto, Nat.mul_div_cancel _ (Nat.two_pow_pos p)]
  have hleft := Nat.mod_lt (d.length * fromW) hto
  rw [← Nat.mod_add_mod] at hfill
  obtain h0 | h0 := Nat.eq_zero_or_pos (d.length * fromW % toW)
  · obtain rfl : p = 0 := by rwa [h0, Nat.zero_add, Nat.mod_eq_of_lt hp] at hfill
    rw [h0, finishRepack_pad_zero, groups_of_lt (total := 0 + 0) hto]
    rfl
  · have hlast : d.length * fromW % toW + p = toW :=
      Nat.eq_of_dvd_of_lt_two_mul (by omega) (Nat.dvd_of_mod_eq_zero hfill) (by omega)
    have hshift : toW - d.length * fromW % toW = p := by omega
    rw [finishRepack_pad_pos h0, hlast, groups_self hto, leftAligned_eq_mul, hshift]
    rfl

/-- Settles O26: the loop keeps the groups cut so far and the bits left (`repackLoop_eq`), and the end reads those. -/
theorem repackCutsTheBitString : Obligations.RepackCutsTheBitString := by
  intro width fromW toW pad d _ _ hto _ hw hd
  have hleft := (Nat.mod_lt (d.length * fromW) hto).le
  refine (repackWith_eq hto hw pad hd).trans ?_
  simp only [finishRepack, leftAligned_eq _ hleft, bigEndian, groups]
  cases pad with
  | true => obtain h0 | h0 := Nat.eq_zero_or_pos (d.length * fromW % toW) <;> simp [h0, Except.map, Nat.ne_of_gt]
  | false =>
    have hpow := (Nat.two_pow_pos (toW - d.length * fromW % toW)).ne'
    simp only [Bool.false_eq_true, if_false, ne_eq, Nat.mul_eq_zero, hpow, or_false]
    split <;> simp [Except.map]

/-- Settles O27: the loop stops at a wide value; and every output is a group or the left-aligned leftover. -/
theorem repackRejectsWideValuesAndStaysInRange : Obligations.RepackRejectsWideValuesAndStaysInRange := by
  intro d fromW toW pad _ hf hto ht
  refine ⟨repack_wide, fun ret hret v hv => ?_⟩
  have hd : ∀ u ∈ d, u < 2 ^ fromW := fun u hu => Nat.not_le.mp fun hle => by
    simp [repack_wide ⟨u, hu, hle⟩] at hret
  rw [repack, repackWith_eq hto (by rw [accW]; omega) pad hd] at hret
  cases hl : finishRepack (bigEndian fromW 0 d) (d.length * fromW % toW) fromW toW pad with
  | error e => rw [hl] at hret; cases hret
  | ok l =>
    rw [hl] at hret
    obtain rfl := Except.ok.inj hret
    exact (List.mem_append.mp hv).elim groups_lt (finishRepack_lt hl)

/-- Settles O28: the padded symbols make the bytes' number with some zero bits after it (`repackWith_pad`); cut at 8
bits that number gives the bytes, and the zero bits left over, fewer than a symbol, pass the strict check. -/
theorem repackRoundTrip : Obligations.RepackRoundTrip := by
  intro d hd
  have hd : ∀ v ∈ d, v < 2 ^ 8 := hd
  obtain ⟨p, hp, k, hk⟩ : ∃ p, p < 5 ∧ ∃ k, d.length * 8 + p = k * 5 :=
    ⟨2 * d.length % 5, Nat.mod_lt _ (by decide), (8 * d.length + 4) / 5, by omega⟩
  have hpad := repackWith_pad (width := accW) (by decide) hd hp (by omega)
  refine ⟨_, hpad, by rw [groups_length]; omega, ?_⟩
  generalize hsyms : groups 5 (bigEndian 8 0 d * 2 ^ p) (d.length * 8 + p) = syms
  have hnumber : bigEndian 5 0 syms = bigEndian 8 0 d * 2 ^ p := by
    have hlt : bigEndian 8 0 d < 2 ^ (0 + d.length * 8) := bigEndian_lt hd (by decide)
    rw [← hsyms, hk, bigEndian_groups (by decide), ← hk, Nat.pow_add, Nat.mod_eq_of_lt]
    exact Nat.mul_lt_mul_of_pos_right (by rwa [Nat.zero_add] at hlt) (Nat.two_pow_pos p)
  have hlen : syms.length * 5 = d.length * 8 + p := by rw [← hsyms, groups_length]; omega
  have hleft : (d.length * 8 + p) % 8 = p := by omega
  have hzeros : finishRepack (bigEndian 8 0 d * 2 ^ p) p 5 8 false = .ok [] :=
    finishRepack_strict_clean hp (by simp [leftAligned_eq _ (show p ≤ 8 by omega)])
  have hlt : ∀ v ∈ syms, v < 2 ^ 5 := fun v hv => groups_lt (hsyms ▸ hv)
  rw [repack, repackWith_eq (by decide) (by decide) false hlt, hnumber, hlen, hleft, hzeros, groups_add (by decide),
    Nat.mul_div_cancel _ (Nat.two_pow_pos p), groups_bigEndian (by decide) d hd,
    groups_of_lt (total := d.length * 8 % 8 + p) (by omega)]
  simp [Except.map]

end Sys2Proof.Machine
end

section
/-! SUPPORT. The repacker's commands as steps of REPACK (spec/40_repacker.md R113 to R116): each command's outcome as an
equation, and a transaction (spec/30_encoding.md R94, R96) from any state. -/

namespace Sys2Proof.Machine

open Sys2Proof

/-! ## RPCFG (R113) -/

/-- The word's pattern is its opcode and its operand byte. -/
theorem rpcfgWord_eq (p : Bool) (f t : BitVec 3) :
    (0b00100000#8 ++ 0#1 ++ BitVec.ofBool p ++ f ++ t : BitVec (8 + 1 + 1 + 3 + 3)) =
      wordOf 0x20 (0#1 ++ BitVec.ofBool p ++ f ++ t) := by
  revert p f t; decide

/-- Settles O23: by the word's two bytes, and the command's one outcome. -/
theorem rpcfgConfiguresAndClears : Obligations.RpcfgConfiguresAndClears :=
  ⟨fun p f t => by
    refine (congrArg decode (rpcfgWord_eq p f t)).trans ?_
    rw [decode_wordOf]
    exact formatR_config f t p, execRpcfg_eq⟩

/-! ## RPPUSH (R114) -/

/-- What RPPUSH sends, and the bits it leaves. -/
theorem State.pushSlices_eq {s : State} (c : Byte) (ht : s.toBits ≠ 0) :
    s.pushSlices c =
      (groups s.toBits.toNat (s.pushed c) (s.bits.toNat + s.fromBits.toNat),
        (s.bits.toNat + s.fromBits.toNat) % s.toBits.toNat) :=
  slices_eq_groups (Nat.pos_of_ne_zero fun h => ht (BitVec.eq_of_toNat_eq h)) ..

/-- At most 8 groups, and 8 only of single bits out of a byte (R114). -/
theorem groupCount_le {bits fromW toW : Nat} (hf : fromW ≤ 8) (hb : bits < toW) :
    (bits + fromW) / toW ≤ 8 ∧ ((bits + fromW) / toW = 8 → fromW = 8 ∧ toW = 1) := by
  have hlt : (bits + fromW) / toW < 9 := (Nat.div_lt_iff_lt_mul (by omega)).mpr (by omega)
  have hmul : (bits + fromW) / toW * toW ≤ bits + fromW := Nat.div_mul_le_self ..
  exact ⟨by omega, fun h => by rw [h] at hmul; omega⟩

/-- Settles O24: the errors by the tests on RPE and the value; the values sent are the loop's groups. -/
theorem rppushSendsTheTopBits : Obligations.RppushSendsTheTopBits := by
  refine ⟨fun c => (congrArg decode (append_eq_wordOf _ c)).trans (decode_wordOf ..), fun c s =>
    ⟨execRppush_pending, execRppush_wide, fun hr hw ht => ?_, fun hf hb => groupCount_le hf.2 hb⟩⟩
  refine (execRppush_fits hr hw ht).trans ?_
  rw [State.pushSlices_eq c ht, State.pushed, shiftIn, Nat.shiftLeft_eq, groups_length]
  simp only [beats, groups, List.map_map, Function.comp_def]
  rfl

/-! ## RPEND (R115) -/

/-- The state RPEND leaves, by what it makes of the leftover bits. -/
def State.finished (s : State) : Except HsError (List Nat) → State
  | .ok l => s.clearRepacker.answers (beats .rpv (l.map (BitVec.ofNat 8))) .ok (natValue l.length)
  | .error e => s.clearRepacker.answers [] (statusOfError e) 0

theorem execRpend_pending {s : State} (hr : s.rpe = true) :
    execRpend s = .next (s.clearRepacker.answers [] .eWidth 0) := (if_pos hr).trans (raise_answers ..)

theorem execRpend_eq {s : State} (hr : s.rpe = false) (hb : s.bits.toNat ≤ s.toBits.toNat) :
    execRpend s =
      .next (s.finished (finishRepack s.acc.toNat s.bits.toNat s.fromBits.toNat s.toBits.toNat s.pad)) := by
  obtain ⟨t, h⟩ := execRpend_completes (Nat.not_lt.mpr hb)
  rw [h]
  obtain ⟨hr', -⟩ | ⟨-, -, ⟨hp, h0, rfl⟩ | ⟨hp, h0, rfl⟩ | ⟨hp, hbad, rfl⟩ | ⟨hp, hf, hl, rfl⟩⟩ := execRpend_next h
  · simp [hr] at hr'
  · rw [hp, finishRepack_pad_pos h0]; rfl
  · rw [hp, h0, finishRepack_pad_zero]; rfl
  · rw [hp, finishRepack_strict_bad hbad]; rfl
  · rw [hp, finishRepack_strict_clean hf hl]; rfl

/-- Settles O25: by `execRpend_eq`, case by case of what it makes of the leftover. -/
theorem rpendChecksOrPadsTheLeftover : Obligations.RpendChecksOrPadsTheLeftover := by
  refine ⟨rfl, fun s => ⟨execRpend_pending, fun hr hb => ?_⟩⟩
  simp only [← leftAligned_eq_mul]
  have h := execRpend_eq hr hb
  refine ⟨fun hp h0 => ?_, fun hp h0 => ?_, fun hp hbad => ?_, fun hp hf hl => ?_⟩
  · rw [hp, h0] at h; exact h
  · have hpos : 0 < s.bits.toNat := Nat.pos_of_ne_zero fun he => h0 (BitVec.eq_of_toNat_eq he)
    rw [hp, finishRepack_pad_pos hpos] at h; exact h
  · rw [hp, finishRepack_strict_bad hbad] at h; exact h
  · rw [hp, finishRepack_strict_clean hf hl] at h; exact h

/-! ## The commands of a transaction (R94, R116) -/

theorem allOk_append {o o' : List Output} (h : allOk o) (h' : allOk o') : allOk (o ++ o') := fun r hr => by
  rw [List.filterMap_append] at hr
  exact (List.mem_append.mp hr).elim (h r) (h' r)

theorem allOk_answer (bs : List Beat) (v : Value) : allOk (bs.map Output.beat ++ [Output.response ⟨.ok, v⟩]) := by
  simp [allOk, Output.response?]

/-- The data of a tag's beats. -/
@[simp] theorem dataOf_beats (tag : Tag) (data : List Byte) : dataOf tag ((beats tag data).map Output.beat) = data := by
  rw [dataOf, filterMap_beat_map]
  simp [beats, List.filterMap_map]

/-- `s` in the middle of a transaction: the configuration and the repacker's registers, and what the transaction has
sent. -/
def State.repacking (s : State) (f t : BitVec 4) (pad : Bool) (a : AccWord) (b : BitVec 4) (o : List Output) : State :=
  { s with fromBits := f, toBits := t, pad := pad, acc := a, bits := b, rpe := false, sent := s.sent ++ o }

section
variable (s : State) {f t : BitVec 4} (pad : Bool)

theorem State.repacking_answers (a : AccWord) (b : BitVec 4) (o : List Output) (bs : List Beat) (st : Status)
    (v : Value) : (s.repacking f t pad a b o).answers bs st v =
      s.repacking f t pad a b (o ++ (bs.map Output.beat ++ [Output.response ⟨st, v⟩])) := by
  simp [State.repacking, State.answers]

/-- RPCFG begins a transaction. -/
theorem exec_rpcfg_repacking :
    exec (Instr.rpcfg f t pad) s = .next (s.repacking f t pad 0 0 [Output.response ⟨.ok, 0⟩]) := by
  rw [exec, execRpcfg_eq]
  simp [State.repacking, State.answers]

/-- An RPPUSH of a value in range does one pass of the loop of R111: ACC and BITS are the loop's, and what it sends is
what the loop puts out. -/
theorem exec_rppush_repacking {c : Byte} (ht : 1 ≤ t.toNat) (hc : c.toNat < 2 ^ f.toNat) (a : AccWord) (b : BitVec 4)
    (o : List Output) :
    ∃ (a' : AccWord) (b' : BitVec 4) (vs : List Nat) (o' : List Output),
      exec (Instr.rppush c) (s.repacking f t pad a b o) = .next (s.repacking f t pad a' b' (o ++ o')) ∧
      b'.toNat < t.toNat ∧ allOk o' ∧ dataOf .rpv o' = vs.map (BitVec.ofNat 8) ∧
      ∀ d ret, repackLoop accW f.toNat t.toNat (c.toNat :: d) a.toNat b.toNat ret =
        repackLoop accW f.toNat t.toNat d a'.toNat b'.toNat (ret ++ vs) := by
  let u := s.repacking f t pad a b o
  have h0 : u.toBits ≠ 0 := fun h => by simp [show t = 0 from h] at ht
  have hacc : (BitVec.ofNat 15 (u.pushed c)).toNat = u.pushed c := Nat.mod_mod ..
  have hbits : (BitVec.ofNat 4 (u.pushSlices c).2).toNat = (u.pushSlices c).2 :=
    (State.pushSlices_bits c ht).trans (State.pushSlices_snd c ht).symm
  refine ⟨BitVec.ofNat 15 (u.pushed c), BitVec.ofNat 4 (u.pushSlices c).2, (u.pushSlices c).1, _,
    (execRppush_fits rfl hc h0).trans (congrArg _ (s.repacking_answers pad ..)), ?_, allOk_answer _ _, ?_,
    fun d ret => ?_⟩
  · rw [hbits, State.pushSlices_snd c ht]
    exact Nat.mod_lt _ ht
  · rw [dataOf_append, dataOf_beats, dataOf_response, List.append_nil]
  · rw [repackLoop_cons hc, hacc, hbits]
    rfl

/-- RPPUSHes of values in range do the loop of R111 over them. -/
theorem execAll_pushes_repacking (ht : 1 ≤ t.toNat) {d : List Byte} (hd : ∀ v ∈ d, v.toNat < 2 ^ f.toNat) (a : AccWord)
    {b : BitVec 4} (hb : b.toNat < t.toNat) (o : List Output) :
    ∃ (a' : AccWord) (b' : BitVec 4) (vs : List Nat) (o' : List Output),
      execAll (d.map Instr.rppush) (s.repacking f t pad a b o) = .next (s.repacking f t pad a' b' (o ++ o')) ∧
      b'.toNat < t.toNat ∧ allOk o' ∧ dataOf .rpv o' = vs.map (BitVec.ofNat 8) ∧
      ∀ ret, repackLoop accW f.toNat t.toNat (d.map BitVec.toNat) a.toNat b.toNat ret =
        .ok (a'.toNat, b'.toNat, ret ++ vs) := by
  induction d generalizing a b o with
  | nil => exact ⟨a, b, [], [], by simp [execAll], hb, by simp [allOk], rfl, fun ret => by simp [repackLoop]⟩
  | cons c d ih =>
    obtain ⟨a₁, b₁, vs₁, o₁, hrun₁, hb₁, hok₁, hdata₁, hloop₁⟩ :=
      exec_rppush_repacking s pad ht (hd c (List.mem_cons_self ..)) a b o
    obtain ⟨a₂, b₂, vs₂, o₂, hrun₂, hb₂, hok₂, hdata₂, hloop₂⟩ :=
      ih (fun v hv => hd v (List.mem_cons_of_mem _ hv)) a₁ hb₁ (o ++ o₁)
    refine ⟨a₂, b₂, vs₁ ++ vs₂, o₁ ++ o₂, ?_, hb₂, allOk_append hok₁ hok₂, ?_, fun ret => ?_⟩
    · rw [List.map_cons, execAll_cons hrun₁, hrun₂, List.append_assoc]
    · rw [dataOf_append, hdata₁, hdata₂, List.map_append]
    · rw [List.map_cons, hloop₁, hloop₂, List.append_assoc]

/-- RPCFG and RPPUSHes of values in range, from any state. -/
theorem execAll_rpcfg_pushes (ht : legalWidth t = true) {d : List Byte} (hd : ∀ v ∈ d, v.toNat < 2 ^ f.toNat) :
    ∃ (a : AccWord) (b : BitVec 4) (vs : List Nat) (o : List Output),
      execAll (Instr.rpcfg f t pad :: d.map Instr.rppush) s = .next (s.repacking f t pad a b o) ∧
      b.toNat < t.toNat ∧ allOk o ∧ dataOf .rpv o = vs.map (BitVec.ofNat 8) ∧
      repackLoop accW f.toNat t.toNat (d.map BitVec.toNat) 0 0 [] = .ok (a.toNat, b.toNat, vs) := by
  have hpos := ((legalWidth_iff t).mp ht).1
  obtain ⟨a, b, vs, o, hrun, hb, hok, hdata, hloop⟩ :=
    execAll_pushes_repacking s pad hpos hd 0 (b := 0) hpos [Output.response ⟨.ok, 0⟩]
  refine ⟨a, b, vs, _, (execAll_cons (exec_rpcfg_repacking s pad)).trans hrun, hb,
    allOk_append (allOk_answer [] 0) hok, ?_, hloop []⟩
  rw [dataOf_append, dataOf_response, List.nil_append, hdata]

end

/-- With RPE set every RPPUSH answers E_WIDTH, and so does the RPEND that clears the repacker. -/
theorem execAll_pending {s : State} (hr : s.rpe = true) (d : List Byte) :
    execAll (d.map Instr.rppush ++ [Instr.rpend]) s = .next { s.clearRepacker with
      sent := s.sent ++ List.replicate (d.length + 1) (Output.response ⟨.eWidth, 0⟩) } := by
  induction d generalizing s with
  | nil =>
    refine (execAll_cons (i := Instr.rpend) (execRpend_pending hr)).trans ?_
    simp [execAll, State.answers]
  | cons c d ih =>
    have hrest := ih (s := s.answers [] .eWidth 0) hr
    refine (execAll_cons (i := Instr.rppush c) (execRppush_pending hr)).trans (hrest.trans ?_)
    simp [State.answers, List.replicate_succ]

/-- A transaction whose first value out of range is `c`. -/
theorem execAll_repackSeq_wide {f t : BitVec 4} (pad : Bool) {good : List Byte} {c : Byte} (bad : List Byte) (s : State)
    (ht : legalWidth t = true) (hgood : ∀ v ∈ good, v.toNat < 2 ^ f.toNat) (hc : 2 ^ f.toNat ≤ c.toNat) :
    ∃ (a : AccWord) (b : BitVec 4) (o : List Output),
      execAll (Instr.rpcfg f t pad :: good.map Instr.rppush) s = .next (s.repacking f t pad a b o) ∧ allOk o ∧
      execAll (repackSeq f t pad (good ++ c :: bad)) s = .next (s.repacking f t pad 0 0
        (o ++ List.replicate (bad.length + 2) (Output.response ⟨.eWidth, 0⟩))) := by
  obtain ⟨a, b, vs, o, hrun, -, hok, -, -⟩ := execAll_rpcfg_pushes s pad ht hgood
  refine ⟨a, b, o, hrun, hok, ?_⟩
  have hseq : repackSeq f t pad (good ++ c :: bad) =
      (Instr.rpcfg f t pad :: good.map Instr.rppush) ++ Instr.rppush c :: (bad.map Instr.rppush ++ [Instr.rpend]) := by
    simp [repackSeq]
  have hwide := execRppush_wide (s := s.repacking f t pad a b o) rfl hc
  rw [hseq, execAll_append hrun, execAll_cons (i := Instr.rppush c) hwide, execAll_pending rfl]
  simp [State.repacking, State.answers, List.replicate_succ]

/-- Settles O30: the values in range do not set RPE, the first one out of range does, and RPE stays set to the end. -/
theorem repackWidthErrorIsSticky : Obligations.RepackWidthErrorIsSticky := by
  intro f t pad good bad c s _ ht hgood hc
  obtain ⟨a, b, o, hrun, hok, hseq⟩ := execAll_repackSeq_wide pad bad s ht hgood hc
  exact ⟨_, _, o, hrun, rfl, hok, hseq, (List.append_assoc ..).symm⟩

/-! ## The result, read off the port (R96) -/

theorem errorOfStatus_statusOfError (e : HsError) : errorOfStatus (statusOfError e) = some e := by cases e <;> rfl

/-- An error in the last response is the result, whatever was sent before it. -/
theorem readRepack_error (o : List Output) (e : HsError) (v : Value) :
    readRepack (o ++ [Output.response ⟨statusOfError e, v⟩]) = some (.error e) := by
  have hne : statusOfError e ≠ .ok := by cases e <;> simp [statusOfError]
  simp only [readRepack, lastResponse_concat, if_neg hne, errorOfStatus_statusOfError, Option.map_some]

/-- With an OK last response the result is the RPV data. -/
theorem readRepack_ok (o : List Output) (v : Value) :
    readRepack (o ++ [Output.response ⟨.ok, v⟩]) = some (.ok (dataOf .rpv o)) := by
  simp [readRepack, lastResponse_concat, dataOf_append]

/-- RPEND after the values `vs` were sent: the result read is those values and what RPEND made of the leftover. -/
theorem finished_repacking (s : State) {f t : BitVec 4} {pad : Bool} {a : AccWord} {b : BitVec 4} {o : List Output}
    {vs : List Nat} (ho : dataOf .rpv o = vs.map (BitVec.ofNat 8)) (r : Except HsError (List Nat)) :
    ∃ o', (s.repacking f t pad a b o).finished r = s.repacking f t pad 0 0 o' ∧
      readRepack o' = some ((r.map (vs ++ ·)).map (List.map (BitVec.ofNat 8))) := by
  cases r with
  | error e => exact ⟨_, s.repacking_answers pad 0 0 o .., readRepack_error ..⟩
  | ok l =>
    refine ⟨_, s.repacking_answers pad 0 0 o .., ?_⟩
    rw [← List.append_assoc, readRepack_ok, dataOf_append, ho, dataOf_beats, ← List.map_append]
    rfl

/-- A transaction whose values are all in range. -/
theorem execAll_repackSeq_fits {f t : BitVec 4} (pad : Bool) {d : List Byte} (s : State) (ht : legalWidth t = true)
    (hd : ∀ v ∈ d, v.toNat < 2 ^ f.toNat) :
    ∃ o, execAll (repackSeq f t pad d) s = .next (s.repacking f t pad 0 0 o) ∧
      readRepack o = some ((repack (d.map BitVec.toNat) f.toNat t.toNat pad).map (List.map (BitVec.ofNat 8))) := by
  obtain ⟨a, b, vs, o, hrun, hb, -, hdata, hloop⟩ := execAll_rpcfg_pushes s pad ht hd
  obtain ⟨o', hend, hread⟩ := finished_repacking s (f := f) (t := t) (pad := pad) (a := a) (b := b) hdata
    (finishRepack a.toNat b.toNat f.toNat t.toNat pad)
  refine ⟨o', (execAll_append hrun).trans ?_, by rw [hread, repack, repackWith_of_loop hloop]⟩
  refine (execAll_cons (i := Instr.rpend) (execRpend_eq rfl hb.le)).trans ?_
  exact congrArg _ hend

/-- Settles O29: with every value in range the RPPUSHes do the loop of R111 and RPEND its end; else the transaction ends
with E_WIDTH, which is REPACK's error. -/
theorem repackTransactionGivesREPACK : Obligations.RepackTransactionGivesREPACK := by
  intro f t pad d s _ ht
  suffices h : ∃ o, execAll (repackSeq f t pad d) s = .next (s.repacking f t pad 0 0 o) ∧
      readRepack o = some ((repack (d.map BitVec.toNat) f.toNat t.toNat pad).map (List.map (BitVec.ofNat 8))) by
    obtain ⟨o, hrun, hread⟩ := h
    exact ⟨_, o, hrun, rfl, hread, rfl⟩
  cases hfind : d.find? (fun v => decide (2 ^ f.toNat ≤ v.toNat)) with
  | none =>
    exact execAll_repackSeq_fits pad s ht (by simpa using hfind)
  | some c =>
    obtain ⟨hc, good, bad, rfl, hgood⟩ := List.find?_eq_some_iff_append.mp hfind
    have hc : 2 ^ f.toNat ≤ c.toNat := by simpa using hc
    obtain ⟨a, b, o, -, -, hseq⟩ := execAll_repackSeq_wide pad bad s ht (by simpa using hgood) hc
    refine ⟨_, hseq, ?_⟩
    have hwide : ∃ v ∈ (good ++ c :: bad).map BitVec.toNat, 2 ^ f.toNat ≤ v := ⟨c.toNat, by simp, hc⟩
    rw [List.replicate_succ', ← List.append_assoc, repack_wide hwide]
    exact readRepack_error _ .invalidInputWidth 0

end Sys2Proof.Machine
end

section
/-! SUPPORT. The polymod step is linear over GF(2), and one to one in each argument (spec/41_polymod.md R130, R141,
R142). -/

namespace Sys2Proof.Machine

open Sys2Proof

/-! ## The step of R130 -/

/-- What bit `i` of the top five bits adds to the step: the generator constant of index `i`, if it is set. -/
def genTerm (top : BitVec 5) (i : Nat) : Word30 := if top.getLsbD i then gen.getD i 0 else 0

/-- What the top five bits add to the step. -/
def genSum (top : BitVec 5) : Word30 :=
  genTerm top 0 ^^^ genTerm top 1 ^^^ genTerm top 2 ^^^ genTerm top 3 ^^^ genTerm top 4

theorem xor_genTerm (r : Word30) (top : BitVec 5) (i : Nat) :
    (if top.getLsbD i then r ^^^ gen.getD i 0 else r) = r ^^^ genTerm top i := by
  unfold genTerm
  split
  · rfl
  · exact BitVec.xor_zero.symm

/-- The step is the low 25 bits moved up, the value and the sum of the constants. -/
theorem polystep_eq (c v : Word30) :
    polystep c v = ((c &&& 0x1ffffff) <<< 5) ^^^ v ^^^ genSum (c.extractLsb' 25 5) := by
  have htop (i : Nat) (hi : i < 5) : c.getLsbD (25 + i) = (c.extractLsb' 25 5).getLsbD i := by
    simp [hi]
  simp only [polystep, List.foldl_cons, List.foldl_nil]
  rw [htop 0 (by decide), htop 1 (by decide), htop 2 (by decide), htop 3 (by decide), htop 4 (by decide)]
  simp only [xor_genTerm]
  simp only [genSum, BitVec.xor_assoc]

/-- Moving the low 25 bits of a 30-bit word up 5 is multiplying them by 32. -/
theorem lowBits_up (c : Word30) : (c &&& 0x1ffffff) <<< 5 = BitVec.ofNat 30 (c.toNat % 2 ^ 25 * 2 ^ 5) := by
  apply BitVec.eq_of_toNat_eq
  have hmask : c.toNat &&& 0x1ffffff = c.toNat % 2 ^ 25 := Nat.and_two_pow_sub_one_eq_mod c.toNat 25
  simp [Nat.shiftLeft_eq, hmask]

/-- Settles O31: by `polystep_eq`, the constants written out. -/
theorem polystepIsTheStepOfR130 : Obligations.PolystepIsTheStepOfR130 := by
  intro c v
  rw [polystep_eq, lowBits_up]
  simp [genSum, genTerm, gen, BitVec.xor_assoc]

/-! ## Linearity (R141) -/

theorem genTerm_xor (a b : BitVec 5) (i : Nat) : genTerm (a ^^^ b) i = genTerm a i ^^^ genTerm b i := by
  simp only [genTerm, BitVec.getLsbD_xor]
  cases a.getLsbD i <;> cases b.getLsbD i <;> simp

theorem genSum_xor (a b : BitVec 5) : genSum (a ^^^ b) = genSum a ^^^ genSum b := by
  simp only [genSum, genTerm_xor]
  ac_rfl

/-- The step is linear: each of its three parts is. -/
theorem polystep_xor (c₁ c₂ v₁ v₂ : Word30) :
    polystep (c₁ ^^^ c₂) (v₁ ^^^ v₂) = polystep c₁ v₁ ^^^ polystep c₂ v₂ := by
  have hlow : (c₁ ^^^ c₂) &&& 0x1ffffff = (c₁ &&& 0x1ffffff) ^^^ (c₂ &&& 0x1ffffff) := by
    ext i hi
    simp [Bool.and_xor_distrib_right]
  simp only [polystep_eq, BitVec.extractLsb'_xor, genSum_xor, hlow, BitVec.shiftLeft_xor_distrib]
  ac_rfl

/-- Settles O32: by `polystep_xor`. -/
theorem polystepIsLinear : Obligations.PolystepIsLinear := polystep_xor

/-! ## The step is one to one (R142) -/

/-- The 32 sums of the constants' low five bits are different: only the empty sum is 0 there. -/
theorem eq_zero_of_genSum_low : ∀ top : BitVec 5, (genSum top).setWidth 5 = 0 → top = 0 := by decide

/-- A step with value 0 ends at 0 only from 0: the low five bits of the result give the top five, and the rest of the
result the rest. -/
theorem eq_zero_of_polystep_zero {c : Word30} (h : polystep c 0#30 = 0#30) : c = 0#30 := by
  rw [polystep_eq, BitVec.xor_zero] at h
  have htop : c.extractLsb' 25 5 = 0 := by
    have hlow : ((c &&& 0x1ffffff) <<< 5).setWidth 5 = 0#5 := by
      ext i hi
      simp
    refine eq_zero_of_genSum_low _ ?_
    simpa [BitVec.setWidth_xor, hlow] using congrArg (BitVec.setWidth 5) h
  rw [htop, show genSum 0 = 0#30 by decide, BitVec.xor_zero, lowBits_up] at h
  have hlow : c.toNat % 2 ^ 25 * 2 ^ 5 % 2 ^ 30 = 0 := by simpa using congrArg BitVec.toNat h
  have hhigh : c.toNat / 2 ^ 25 % 2 ^ 5 = 0 := by
    simpa [Nat.shiftRight_eq_div_pow] using congrArg BitVec.toNat htop
  have hc := c.isLt
  apply BitVec.eq_of_toNat_eq
  show c.toNat = 0
  omega

/-- Different accumulators stay different: by linearity their difference steps with value 0. -/
theorem polystep_left_injective (v : Word30) : Function.Injective (polystep · v) := by
  intro c d h
  have hdiff : polystep (c ^^^ d) 0#30 = 0#30 := by
    calc polystep (c ^^^ d) 0#30
        = polystep (c ^^^ d) (v ^^^ v) := by rw [BitVec.xor_self]
      _ = polystep c v ^^^ polystep d v := polystep_xor ..
      _ = 0#30 := by rw [show polystep c v = polystep d v from h, BitVec.xor_self]
  exact BitVec.xor_eq_zero_iff.mp (eq_zero_of_polystep_zero hdiff)

/-- Different values make different results. -/
theorem polystep_right_injective (c : Word30) : Function.Injective (polystep c) := by
  intro v w h
  simpa only [polystep_eq, BitVec.xor_left_inj, BitVec.xor_right_inj] using h

theorem zext30_injective : Function.Injective zext30 := by
  intro a b h
  have hback (x : Sym) : (zext30 x).setWidth 5 = x := BitVec.setWidth_setWidth_of_le x (by decide)
  rw [← hback a, h, hback b]

/-- Feeding the same values keeps different accumulators different. -/
theorem polyfeed_left_injective (vs : List Word30) : Function.Injective (polyfeed · vs) := by
  induction vs with
  | nil => exact fun _ _ h => h
  | cons v vs ih => exact fun c d h => polystep_left_injective v (ih h)

theorem polymod_append (xs ys : List Word30) : polymod (xs ++ ys) = polyfeed (polymod xs) ys := List.foldl_append

/-- Settles O33: the changed symbol makes the accumulator after it different, and every later step keeps it so. -/
theorem oneWrongSymbolIsDetected : Obligations.OneWrongSymbolIsDetected := by
  intro xs ys a b ha hne hb
  simp only [polymod_append] at ha hb
  have hstep := polyfeed_left_injective ys (hb.trans ha.symm)
  exact hne (zext30_injective (polystep_right_injective _ hstep))

end Sys2Proof.Machine
end

section
/-! SUPPORT. The polymod unit's commands (spec/41_polymod.md R134 to R138), and the POLYMOD and VERIFY sequences
(spec/30_encoding.md R94, R96) from any state. -/

namespace Sys2Proof.Machine

open Sys2Proof

/-! ## PMINIT and PMSTEP (R134, R135) -/

/-- The word of a command with a symbol: three bits 0 above it. -/
theorem decode_symbolWord (op : BitVec 8) (x : Sym) :
    decode (op ++ 0#3 ++ x : BitVec (8 + 3 + 5)) = decodeFields op (0#3 ++ x) := by
  rw [BitVec.append_assoc, BitVec.cast_eq, ← decode_wordOf, ← append_eq_wordOf]

/-- Settles O34: by the word's two bytes, and each command's one outcome. -/
theorem pminitAndPmstep : Obligations.PminitAndPmstep :=
  ⟨rfl, fun x => (decode_symbolWord 0x31 x).trans (formatS_sym .pmstep x),
    fun s => ⟨execPminit_eq s, fun x => execPmstep_eq x s⟩⟩

/-! ## PMHRP (R136) -/

theorem execPmhrp_overflow {s : State} (h : s.len.toNat = 91) : execPmhrp s = .next (s.answers [] .eOverflow 0) :=
  (if_pos h).trans (raise_answers ..)

theorem execPmhrp_eq {s : State} (h : s.len.toNat ≤ 90) :
    execPmhrp s =
      .next ({ s with chk := polymod (expand (s.cells s.len.toNat)) }.answers [] .ok (lenValue s.len)) := by
  have h91 : ¬ s.len.toNat = Config.lenOver := fun e => absurd (e ▸ h) (by decide)
  exact (if_neg h91).trans ((withCells_of_le h).trans (respond_answers ..))

/-- The expansion by division: the high part of a character is its quotient by 32, the low part the remainder. -/
theorem expand_eq (hrp : List Byte) :
    expand hrp = hrp.map (fun (h : Byte) => BitVec.ofNat 30 (h.toNat / 32)) ++ [0] ++
      hrp.map (fun (h : Byte) => BitVec.ofNat 30 (h.toNat % 32)) := by
  have hhigh (h : Byte) : (h >>> 5).setWidth 30 = BitVec.ofNat 30 (h.toNat / 32) := by
    rw [← BitVec.ofNat_toNat, BitVec.toNat_ushiftRight, Nat.shiftRight_eq_div_pow]
  have hlow (h : Byte) : (h &&& 31).setWidth 30 = BitVec.ofNat 30 (h.toNat % 32) := by
    rw [← BitVec.ofNat_toNat, BitVec.toNat_and]
    exact congrArg _ (Nat.and_two_pow_sub_one_eq_mod h.toNat 5)
  simp only [expand, hhigh, hlow]

/-- Settles O35: by `execPmhrp_eq`, the expansion and VALUE written out. -/
theorem pmhrpChecksumsTheExpandedString : Obligations.PmhrpChecksumsTheExpandedString := by
  refine ⟨rfl, fun s => ⟨fun h => execPmhrp_overflow (congrArg BitVec.toNat h), fun h => ?_⟩⟩
  refine (execPmhrp_eq h).trans ?_
  rw [expand_eq, lenValue, ← BitVec.ofNat_toNat]
  rfl

/-! ## PMRD and PMVFY (R137, R138) -/

theorem word30Value_eq (c : Word30) : word30Value c = BitVec.ofNat 32 c.toNat := (BitVec.ofNat_toNat ..).symm

/-- Settles O36: by each command's one outcome. -/
theorem pmrdAndPmvfyAnswerFromChk : Obligations.PmrdAndPmvfyAnswerFromChk := by
  refine ⟨rfl, rfl, fun s => ⟨?_, fun h => ?_, fun h => ?_⟩⟩
  · exact (execPmrd_eq s).trans (by rw [word30Value_eq])
  · exact (execPmvfy_eq s).trans (by rw [if_pos h])
  · exact (execPmvfy_eq s).trans (by rw [if_neg h])

/-! ## The POLYMOD sequence (R140) -/

/-- A PMSTEP for each symbol feeds them to CHK, and each answers OK. -/
theorem execAll_pmsteps (vs : List Sym) (s : State) :
    execAll (vs.map .pmstep) s = .next { s with
      chk := polyfeed s.chk (vs.map zext30)
      sent := s.sent ++ List.replicate vs.length (.response ⟨.ok, 0⟩) } := by
  induction vs generalizing s with
  | nil => simp [execAll, polyfeed]
  | cons x vs ih =>
    rw [List.map_cons, execAll_cons (i := .pmstep x) (execPmstep_eq x s), ih]
    simp [State.answers, polyfeed, List.replicate_succ]

theorem allOk_replicate (n : Nat) (v : Value) : allOk (List.replicate n (.response ⟨.ok, v⟩)) := by
  simp [allOk, Output.response?]

/-- PMINIT begins the fold, the PMSTEPs feed the symbols and PMRD reads CHK. -/
theorem execAll_polymodSeq (vs : List Sym) (s : State) :
    execAll (polymodSeq vs) s = .next { s with
      chk := polymod (vs.map zext30)
      sent := s.sent ++ (List.replicate (vs.length + 1) (.response ⟨.ok, 0⟩) ++
        [.response ⟨.ok, word30Value (polymod (vs.map zext30))⟩]) } := by
  refine (execAll_cons (i := .pminit) (execPminit_eq s)).trans ?_
  refine (execAll_append (execAll_pmsteps vs _)).trans ((execAll_cons (i := .pmrd) (execPmrd_eq _)).trans ?_)
  simp [execAll, State.answers, polymod, List.replicate_succ]

/-- Settles O37: by `execAll_polymodSeq`, the last response being PMRD's. -/
theorem polymodSequenceGivesPOLYMOD : Obligations.PolymodSequenceGivesPOLYMOD := by
  intro vs s
  refine ⟨_, _, execAll_polymodSeq vs s, rfl, allOk_append (allOk_replicate _ _) (allOk_answer [] _), ?_, rfl⟩
  rw [readPolymod, lastResponse_concat, ← word30Value_eq]
  rfl

/-! ## Loading a string that fits (R94) -/

/-- SBPUT of a character that fits. -/
theorem exec_sbput_fits (c : Byte) {s : State} (h : s.len.toNat < 90) :
    ∃ t : State, exec (.sbput c) s = .next t ∧ t.len.toNat = s.len.toNat + 1 ∧ t.string = s.string ++ [c] ∧
      t.sent = s.sent ++ [.response ⟨.ok, lenValue (s.len + 1)⟩] :=
  ⟨_, (execSbput_eq c s).trans (congrArg _ (if_pos h)), len_succ_toNat h, s.string_stored c h,
    congrArg (· ++ _) (List.append_nil s.sent)⟩

/-- SBPUTs of characters that fit append them to the string, and each answers OK. -/
theorem execAll_sbputs {str : List Byte} {s : State} (h : s.len.toNat + str.length ≤ 90) :
    ∃ (t : State) (o : List Output), execAll (str.map .sbput) s = .next t ∧ t.len.toNat = s.len.toNat + str.length ∧
      t.string = s.string ++ str ∧ t.sent = s.sent ++ o ∧ allOk o := by
  induction str generalizing s with
  | nil => exact ⟨s, [], rfl, rfl, by simp, by simp, by simp [allOk]⟩
  | cons c str ih =>
    rw [List.length_cons] at h
    obtain ⟨u, hput, hulen, hustr, husent⟩ := exec_sbput_fits c (s := s) (by omega)
    obtain ⟨t, o, hrun, hlen, hstr, hsent, hok⟩ := ih (s := u) (by omega)
    refine ⟨t, _, (execAll_cons hput).trans hrun, ?_, ?_, ?_,
      allOk_append (allOk_answer [] (lenValue (s.len + 1))) hok⟩
    · rw [hlen, hulen, List.length_cons, Nat.add_assoc, Nat.add_comm 1]
    · rw [hstr, hustr, List.append_assoc, List.singleton_append]
    · rw [hsent, husent, List.append_assoc]
      rfl

/-- SBSTR of a string that fits leaves it in the buffer, and every response is OK. -/
theorem execAll_sbstr {str : List Byte} (s : State) (h : str.length ≤ 90) :
    ∃ (t : State) (o : List Output), execAll (sbstr str) s = .next t ∧ t.len.toNat = str.length ∧
      t.string = str ∧ t.sent = s.sent ++ o ∧ allOk o := by
  obtain ⟨t, o, hrun, hlen, hstr, hsent, hok⟩ := execAll_sbputs (str := str)
    (s := { s with len := 0, np := false, low := false, upp := false }.answers [] .ok 0) (by simpa using h)
  refine ⟨t, _, (execAll_cons (i := .sbclr) (execSbclr_eq s)).trans hrun, by simpa using hlen, ?_, ?_,
    allOk_append (allOk_answer [] 0) hok⟩
  · rw [hstr, State.answers_string]
    rfl
  · rw [hsent, State.answers_sent, List.append_assoc, List.append_assoc]
    rfl

/-! ## The VERIFY transaction (R139) -/

/-- PMHRP, the PMSTEPs and PMVFY on a loaded hrp: PMVFY answers 1 exactly when VERIFYF is true. -/
theorem execAll_pmhrp_pmsteps_pmvfy (dwc : List Sym) {s : State} (h : s.len.toNat ≤ 90) :
    execAll (.pmhrp :: dwc.map .pmstep ++ [.pmvfy]) s = .next { s with
      chk := polymod (expand s.string ++ dwc.map zext30)
      sent := s.sent ++ (.response ⟨.ok, lenValue s.len⟩ :: List.replicate dwc.length (.response ⟨.ok, 0⟩) ++
        [.response ⟨.ok, if verifyF s.string dwc then 1 else 0⟩]) } := by
  refine (execAll_cons (i := .pmhrp) (execPmhrp_eq h)).trans ?_
  refine (execAll_append (execAll_pmsteps dwc _)).trans ((execAll_cons (i := .pmvfy) (execPmvfy_eq _)).trans ?_)
  simp [execAll, State.answers, verifyF, polymod_append, State.string_of_le h]

/-- Settles O38: the hrp is loaded whole, PMHRP and the PMSTEPs make VERIFYF's polymod, and PMVFY tells if it is 1. -/
theorem verifyTransactionGivesVERIFY : Obligations.VerifyTransactionGivesVERIFY := by
  intro hrp dwc s hfits
  obtain ⟨t, o, hload, hlen, hstr, hsent, hok⟩ := execAll_sbstr s hfits
  have hverify := execAll_pmhrp_pmsteps_pmvfy dwc (hlen.trans_le hfits)
  have hrun := (congrArg (execAll · s) (List.append_assoc ..)).trans ((execAll_append hload).trans hverify)
  refine ⟨_, _, hrun, (congrArg (· ++ _) hsent).trans (List.append_assoc ..), allOk_append hok ?_, ?_⟩
  · exact allOk_append (allOk_append (allOk_answer [] _) (allOk_replicate _ _)) (allOk_answer [] _)
  · rw [readVerify, ← List.append_assoc, lastResponse_concat, hstr]
    cases verifyF hrp dwc <;> rfl

end Sys2Proof.Machine
end

section
/-! SUPPORT. The character unit (spec/42_base32.md R150 to R156): the two tables are inverse, and CXENC and CXDEC answer
from them. -/

namespace Sys2Proof.Machine

open Sys2Proof

/-! ## The tables (R150, R151, R156) -/

/-- The alphabet's 32 characters are all different. -/
@[simp] theorem charDec_charEnc (x : Sym) : charDec (charEnc x) = some x := by revert x; decide

/-- The index found holds the character looked up. -/
theorem charEnc_of_charDec {c : Byte} {x : Sym} (h : charDec c = some x) : charEnc x = c := by
  obtain ⟨i, hidx, rfl⟩ := Option.map_eq_some_iff.mp h
  obtain ⟨hi, hc, -⟩ := List.idxOf?_eq_some_iff.mp hidx
  rw [charEnc, BitVec.toNat_ofNat, Nat.mod_eq_of_lt (show i < 2 ^ 5 from hi), ← List.getElem_eq_getD (h := hi), hc]

theorem charDec_eq_some_iff {c : Byte} {x : Sym} : charDec c = some x ↔ charEnc x = c :=
  ⟨charEnc_of_charDec, fun h => h ▸ charDec_charEnc x⟩

theorem charDec_eq_none_iff {c : Byte} : charDec c = none ↔ ∀ x, charEnc x ≠ c := by
  simp only [Option.eq_none_iff_forall_ne_some, ne_eq, charDec_eq_some_iff]

/-- No alphabet character is unprintable, uppercase or the separator. -/
theorem charEnc_printable_not_upper_not_sep (x : Sym) :
    printable (charEnc x) = true ∧ isUpper (charEnc x) = false ∧ charEnc x ≠ 0x31 := by revert x; decide

/-- Settles O40: `charDec_eq_some_iff`, each way, and the kind of each alphabet character. -/
theorem characterTablesAreInverse : Obligations.CharacterTablesAreInverse :=
  ⟨charDec_charEnc, fun _ _ => charEnc_of_charDec, charEnc_printable_not_upper_not_sep⟩

/-! ## CXENC and CXDEC (R152 to R154) -/

/-- R150: the table holds the codes of the alphabet string's characters. -/
theorem alphabet_getElem? (x : Sym) :
    "qpzry9x8gf2tvdw0s3jn54khce6mua7l".toList[x.toNat]? = some (Char.ofNat (charEnc x).toNat) := by revert x; decide

theorem toNat_charOfByte (c : Byte) : (Char.ofNat c.toNat).toNat = c.toNat := by
  rw [Char.toNat_ofNat, if_pos (.inl (c.isLt.trans (by decide)))]

theorem byteValue_eq (c : Byte) : byteValue c = BitVec.ofNat 32 c.toNat := (BitVec.ofNat_toNat ..).symm

theorem symValue_eq (x : Sym) : symValue x = BitVec.ofNat 32 x.toNat := (BitVec.ofNat_toNat ..).symm

/-- R152, the uppercase range written out. -/
theorem lower_eq (c : Byte) : lower c = if 0x41 ≤ c.toNat ∧ c.toNat ≤ 0x5A then c + 0x20 else c := by
  simp only [lower, isUpper, Bool.and_eq_true, decide_eq_true_eq]

theorem execCxdec_symbol {c : Byte} {x : Sym} (h : charEnc x = lower c) (s : State) :
    execCxdec c s = .next (s.answers [] .ok (symValue x)) := by
  rw [execCxdec_eq, charDec_eq_some_iff.mpr h]

theorem execCxdec_charset {c : Byte} (h : ∀ x, charEnc x ≠ lower c) (s : State) :
    execCxdec c s = .next (s.answers [] .eCharset 0) := by
  rw [execCxdec_eq, charDec_eq_none_iff.mpr h]

/-- Settles O39: by each word's two bytes; the table is the alphabet string's (`alphabet_getElem?`), and CXDEC's lookup
finds exactly the symbol with the lower-cased character (`charDec_eq_some_iff`). -/
theorem characterCommandsUseTheAlphabet : Obligations.CharacterCommandsUseTheAlphabet := by
  refine ⟨fun x => (decode_symbolWord 0x40 x).trans (formatS_sym .cxenc x),
    fun c => (congrArg decode (append_eq_wordOf _ c)).trans (decode_wordOf ..),
    fun x s => ⟨_, alphabet_getElem? x, ?_⟩, fun c s => ?_⟩
  · rw [toNat_charOfByte, ← byteValue_eq]
    exact execCxenc_eq x s
  · rw [← lower_eq]
    refine ⟨fun x h => ?_, fun h => execCxdec_charset h s⟩
    rw [← symValue_eq]
    exact execCxdec_symbol h s

end Sys2Proof.Machine
end

section
/-! SUPPORT. The string buffer and system commands (spec/43_buffer_system.md R161 to R164): SBCLR and SRST from any
state, SBPUT on either side of the buffer's capacity, and what loading a string of any length leaves. -/

namespace Sys2Proof.Machine

open Sys2Proof

/-! ## SBCLR (R161) -/

/-- Settles O19: by the word, and the command's one outcome. -/
theorem sbclrEmptiesTheBuffer : Obligations.SbclrEmptiesTheBuffer := ⟨rfl, execSbclr_eq⟩

/-! ## SRST (R163) -/

/-- A sequence of commands neither reads nor changes the pending inputs. -/
theorem execAll_withInputs {is : List Instr} {s t : State} (h : execAll is s = .next t) (x : List Input) :
    execAll is { s with inputs := x } = .next { t with inputs := x } := by
  induction is generalizing s with
  | nil => cases h; rfl
  | cons i is ih =>
    have hexec := exec_withInputs i s x
    cases hi : exec i s with
    | next u =>
      rw [hi] at hexec
      rw [execAll_cons hexec]
      exact ih (by rwa [execAll_cons hi] at h)
    | fault f => simp [execAll, hi] at h
    | refused f => simp [execAll, hi] at h

/-- Settles O20: SRST leaves reset's registers, so but for the pending inputs, which no command reads, the state it
leaves is alike the reset state. -/
theorem srstActsAsReset : Obligations.SrstActsAsReset := by
  refine ⟨rfl, execSrst_eq, fun s is hw => ?_⟩
  obtain ⟨t, t', o, ht, ht', ho, ho'⟩ := execAll_alike hw State.reset_regsLegal
    (s' := { State.reset with sb := s.sb, sent := s.sent }.answers [] .ok 0) (State.alike_reset ..)
  refine ⟨_, t, _, execSrst_eq s, execAll_withInputs ht' s.inputs, ht, ?_⟩
  rw [show t.sent = o from ho]
  exact ho'

/-! ## SBPUT (R162) -/

/-- R5, the printable range written out. -/
theorem not_printable_eq (c : Byte) : (!printable c) = decide (c.toNat < 33 ∨ 126 < c.toNat) := by
  rw [printable, ← Bool.decide_and, ← decide_not, decide_eq_decide]
  omega

theorem isLower_eq (c : Byte) : isLower c = decide (0x61 ≤ c.toNat ∧ c.toNat ≤ 0x7A) := by
  rw [isLower, Bool.decide_and]

theorem isUpper_eq (c : Byte) : isUpper c = decide (0x41 ≤ c.toNat ∧ c.toNat ≤ 0x5A) := by
  rw [isUpper, Bool.decide_and]

theorem lenValue_succ {n : BitVec 7} (h : n.toNat < 90) : lenValue (n + 1) = BitVec.ofNat 32 (n.toNat + 1) := by
  rw [lenValue, ← BitVec.ofNat_toNat, len_succ_toNat h]

/-- While LEN is below 90 SBPUT stores the character at cell LEN and answers with the new LEN. -/
theorem exec_sbput_stores (c : Byte) {s : State} (h : s.len.toNat < 90) :
    exec (.sbput c) s = .next ({ s.noteChar c with len := s.len + 1, sb := s.sb.write s.len.toNat c }.answers [] .ok
      (BitVec.ofNat 32 (s.len.toNat + 1))) := by
  rw [← lenValue_succ h]
  exact (execSbput_eq c s).trans (congrArg _ (if_pos h))

/-- From 90 on SBPUT drops the character and marks the overflow. -/
theorem exec_sbput_drops (c : Byte) {s : State} (h : 90 ≤ s.len.toNat) :
    exec (.sbput c) s = .next ({ s.noteChar c with len := 91 }.answers [] .eOverflow 91) :=
  (execSbput_eq c s).trans (congrArg _ (if_neg (Nat.not_lt.mpr h)))

/-- Settles O21: by the word's two bytes, and SBPUT's outcome on either side of the buffer's capacity. -/
theorem sbputAppendsOrOverflows : Obligations.SbputAppendsOrOverflows := by
  refine ⟨fun c => (congrArg decode (append_eq_wordOf _ c)).trans (decode_wordOf ..), fun c s => ?_⟩
  simp only [← not_printable_eq, ← isLower_eq, ← isUpper_eq]
  refine ⟨fun h => ⟨_, exec_sbput_stores c h, rfl, ?_, fun a ha => ?_⟩, exec_sbput_drops c⟩
  · exact (s.cell_setCell ..).trans (if_pos rfl)
  · exact exec_sbput_cell (exec_sbput_stores c h) fun hcell => ha hcell.1

/-! ## Loading a string of any length (R164) -/

/-- What loading `str` into the empty buffer leaves there: its first 90 characters, their count, 91 standing for more,
and in the flags what any of its characters is, kept or not. -/
structure State.Loaded (s : State) (str : List Byte) : Prop where
  string : s.string = str.take 90
  len : s.len.toNat = min str.length 91
  np : s.np = str.any (fun c => !printable c)
  low : s.low = str.any isLower
  upp : s.upp = str.any isUpper

/-- What SBPUT answers when `n` characters have been given before. -/
def putAnswer (n : Nat) : Output :=
  if n < 90 then .response ⟨.ok, BitVec.ofNat 32 (n + 1)⟩ else .response ⟨.eOverflow, 91⟩

/-- SBPUT loads one more character. -/
theorem exec_sbput_loaded {s : State} {str : List Byte} (h : s.Loaded str) (c : Byte) :
    ∃ t : State, exec (.sbput c) s = .next t ∧ t.Loaded (str ++ [c]) ∧ t.sent = s.sent ++ [putAnswer str.length] := by
  obtain ⟨hstr, hlen, hnp, hlow, hupp⟩ := h
  have hlength : (str ++ [c]).length = str.length + 1 := List.length_append
  have hnp' : (s.noteChar c).np = (str ++ [c]).any (fun c => !printable c) := by simp [hnp]
  have hlow' : (s.noteChar c).low = (str ++ [c]).any isLower := by simp [hlow]
  have hupp' : (s.noteChar c).upp = (str ++ [c]).any isUpper := by simp [hupp]
  by_cases hfits : str.length < 90
  · have hl : s.len.toNat = str.length := by omega
    have hs : s.len.toNat < 90 := by omega
    refine ⟨_, exec_sbput_stores c hs, ⟨(s.string_stored c hs).trans ?_, (len_succ_toNat hs).trans (by omega),
      hnp', hlow', hupp'⟩, by simp [putAnswer, hfits, hl]⟩
    rw [hstr, List.take_of_length_le (by omega), List.take_of_length_le (by omega)]
  · have hs : 90 ≤ s.len.toNat := by omega
    have hmin : 91 = min (str ++ [c]).length 91 := by omega
    refine ⟨_, exec_sbput_drops c hs, ⟨(s.string_dropped c hs).trans ?_, hmin, hnp', hlow', hupp'⟩,
      by simp [putAnswer, hfits]⟩
    rw [hstr, List.take_append_of_le_length (by omega)]

/-- SBSTR loads its string, and answers for SBCLR and then for each character. -/
theorem execAll_sbstr_loaded (str : List Byte) (s : State) :
    ∃ t : State, execAll (sbstr str) s = .next t ∧ t.Loaded str ∧
      t.sent = s.sent ++ .response ⟨.ok, 0⟩ :: (List.range str.length).map putAnswer := by
  induction str using List.reverseRecOn with
  | nil => exact ⟨_, execAll_cons (execSbclr_eq s), ⟨rfl, rfl, rfl, rfl, rfl⟩, by simp⟩
  | append_singleton str c ih =>
    obtain ⟨u, hrun, hu, husent⟩ := ih
    obtain ⟨t, hput, ht, htsent⟩ := exec_sbput_loaded hu c
    refine ⟨t, ?_, ht, ?_⟩
    · rw [show sbstr (str ++ [c]) = sbstr str ++ [.sbput c] by simp [sbstr], execAll_append hrun, execAll_cons hput]
      rfl
    · simp [htsent, husent, List.range_succ]

/-- Settles O22: by `execAll_sbstr_loaded`, the flags' ranges written out. -/
theorem loadingAStringLeavesIt : Obligations.LoadingAStringLeavesIt := by
  intro str s
  obtain ⟨t, hrun, ⟨hstr, hlen, hnp, hlow, hupp⟩, hsent⟩ := execAll_sbstr_loaded str s
  simp only [← not_printable_eq, ← isLower_eq, ← isUpper_eq]
  exact ⟨t, hrun, hstr, hlen, hnp, hlow, hupp, hsent⟩

end Sys2Proof.Machine
end

section
/-! SUPPORT. The encoder (spec/44_encode.md R170 to R176): its checksum makes VERIFYF true, its commands send the
characters of ENCODE, and which of its strings the decoder takes back. -/

namespace Sys2Proof.Machine

open Sys2Proof

/-! ## The checksum symbols (R64, R171) -/

/-- The symbols of a checksum by division, from its top five bits down. -/
theorem sixSyms_eq (m : Word30) :
    sixSyms m = [25, 20, 15, 10, 5, 0].map fun k => BitVec.ofNat 5 (m.toNat / 2 ^ k % 32) := by
  have hsym (k : Nat) : (m >>> k).setWidth 5 = BitVec.ofNat 5 (m.toNat / 2 ^ k % 32) := by
    apply BitVec.eq_of_toNat_eq
    simp [Nat.shiftRight_eq_div_pow]
  simp [sixSyms, hsym]

@[simp] theorem sixSyms_length (m : Word30) : (sixSyms m).length = 6 := rfl

/-- Feeding the next five bits of `m` to the bits above them gives all of these bits: with the top five bits 0 the mask
takes nothing away and no constant is added. -/
theorem polystep_nextSymbol (m : Word30) (k : Nat) :
    polystep (m >>> (k + 5)) (zext30 ((m >>> k).setWidth 5)) = m >>> k := by
  have htop : (m >>> (k + 5)).extractLsb' 25 5 = 0 := by
    ext i hi
    simp [BitVec.getLsbD_of_ge m (k + 5 + (25 + i)) (by omega)]
  have hlow : m >>> (k + 5) &&& 0x1ffffff = m >>> (k + 5) := by
    apply BitVec.eq_of_toNat_eq
    have hlt : m.toNat >>> (k + 5) < 2 ^ 25 := by
      rw [Nat.shiftRight_eq_div_pow, Nat.div_lt_iff_lt_mul (Nat.two_pow_pos _), ← Nat.pow_add]
      exact m.isLt.trans_le (Nat.pow_le_pow_right (by decide) (by omega))
    rw [BitVec.toNat_and, BitVec.toNat_ushiftRight]
    exact (Nat.and_two_pow_sub_one_eq_mod _ 25).trans (Nat.mod_eq_of_lt hlt)
  rw [polystep_eq, htop, hlow, show genSum 0 = 0#30 by decide, BitVec.xor_zero]
  ext i hi
  by_cases hnew : i < 5
  · simp [zext30, hi, hnew]
  · simp [zext30, hi, hnew, show k + 5 + (i - 5) = k + i by omega]

/-- The `n` lowest symbols of `m`, fed to the bits above them, rebuild `m`. -/
theorem polyfeed_lowSymbols (m : Word30) (n : Nat) :
    polyfeed (m >>> (5 * n)) ((List.range n).reverse.map fun i => zext30 ((m >>> (5 * i)).setWidth 5)) = m := by
  induction n with
  | zero => exact BitVec.ushiftRight_zero m
  | succ n ih =>
    rw [List.range_succ, List.reverse_append, List.reverse_singleton, List.singleton_append, List.map_cons]
    exact (congrArg (polyfeed · _) (polystep_nextSymbol m (5 * n))).trans ih

/-- The six symbols of a checksum, fed to 0, rebuild it. -/
theorem polyfeed_sixSyms (m : Word30) : polyfeed 0#30 ((sixSyms m).map zext30) = m := by
  have hzero : m >>> (5 * 6) = 0#30 := BitVec.ushiftRight_eq_zero (Nat.le_refl _)
  rw [← hzero]
  exact polyfeed_lowSymbols m 6

/-- The step's linearity for a whole sequence: one accumulator takes the values, the other as many zeros. -/
theorem polyfeed_xor (c d : Word30) (vs : List Word30) :
    polyfeed (c ^^^ d) vs = polyfeed c (List.replicate vs.length 0#30) ^^^ polyfeed d vs := by
  induction vs generalizing c d with
  | nil => rfl
  | cons v vs ih =>
    calc polyfeed (c ^^^ d) (v :: vs)
        = polyfeed (polystep (c ^^^ d) (0#30 ^^^ v)) vs := by rw [BitVec.zero_xor]; rfl
      _ = polyfeed (polystep c 0#30 ^^^ polystep d v) vs := by rw [polystep_xor]
      _ = _ := ih ..

/-- Feeding six symbols instead of six zeros adds the word they make. -/
theorem polyfeed_sixSyms_eq (c m : Word30) :
    polyfeed c ((sixSyms m).map zext30) = polyfeed c (List.replicate 6 0#30) ^^^ m := by
  have h := polyfeed_xor c 0#30 ((sixSyms m).map zext30)
  rwa [BitVec.xor_zero, polyfeed_sixSyms] at h

/-- Settles O43: the checksum symbols add `m` to the six zero steps' result, which is `m ^ 1`, and 1 is left. -/
theorem encodedSymbolsVerify : Obligations.EncodedSymbolsVerify := by
  intro hrp data
  have hfeed : polymod (expand hrp ++ (data ++ ckSyms hrp data).map zext30) = 1#30 := by
    rw [List.map_append, ← List.append_assoc, polymod_append, ckSyms, polyfeed_sixSyms_eq, checksum,
      polymod_append _ (List.replicate 6 0), ← BitVec.xor_assoc]
    exact (congrArg (· ^^^ 1#30) (BitVec.xor_self ..)).trans BitVec.zero_xor
  exact beq_iff_eq.mpr hfeed

/-! ## ENCHRP (R172) -/

theorem execEnchrp_overflow {s : State} (h : s.len.toNat = 91) : execEnchrp s = .next (s.answers [] .eOverflow 0) :=
  (if_pos h).trans (raise_answers ..)

theorem execEnchrp_eq {s : State} (h : s.len.toNat ≤ 90) :
    execEnchrp s = .next ({ s with chk := polymod (expand s.string) }.answers (beats .char (s.string ++ [sep])) .ok
      (lenValue s.len)) := by
  have h91 : ¬ s.len.toNat = Config.lenOver := fun e => absurd (e ▸ h) (by decide)
  rw [State.string_of_le h]
  exact (if_neg h91).trans ((withCells_of_le h).trans (respond_emit_answers ..))

/-- Settles O41: by the word, and ENCHRP's outcome on either side of the buffer's capacity. -/
theorem enchrpSendsTheHrpAndSeparator : Obligations.EnchrpSendsTheHrpAndSeparator := by
  refine ⟨rfl, fun s => ⟨fun h => execEnchrp_overflow (congrArg BitVec.toNat h), fun h => ?_⟩⟩
  refine (execEnchrp_eq h).trans ?_
  rw [State.string_of_le h, lenValue, ← BitVec.ofNat_toNat, beats, List.map_append]
  rfl

/-! ## ENCSYM and ENCFIN (R173, R174) -/

/-- Settles O42: by the words' two bytes, and each command's one outcome. -/
theorem encsymAndEncfinSendCharacters : Obligations.EncsymAndEncfinSendCharacters := by
  refine ⟨fun x => (decode_symbolWord 0x51 x).trans (formatS_sym .encsym x), rfl, fun x s => execEncsym_eq x s,
    fun s => (execEncfin_eq s).trans ?_⟩
  rw [sixSyms_eq, word30Value_eq, beats, List.map_map, List.map_map]
  rfl

/-! ## The ENCODE transaction (R175) -/

/-- Commands that each keep a part of the state keep it together. -/
theorem execAll_keeps {α : Type} {f : State → α} {is : List Instr}
    (hf : ∀ i ∈ is, ∀ s t : State, exec i s = .next t → f t = f s) {s t : State} (h : execAll is s = .next t) :
    f t = f s := by
  induction is generalizing s with
  | nil => cases h; rfl
  | cons i is ih =>
    have hi := hf i (List.mem_cons_self ..)
    cases hexec : exec i s with
    | next u =>
      rw [execAll_cons hexec] at h
      exact (ih (fun j hj => hf j (List.mem_cons_of_mem _ hj)) h).trans (hi s u hexec)
    | fault r => simp [execAll, hexec] at h
    | refused r => simp [execAll, hexec] at h

/-- Loading a string keeps CHK and emits no beat. -/
theorem execAll_sbstr_keeps {str : List Byte} {s t : State} (h : execAll (sbstr str) s = .next t) :
    t.chk = s.chk ∧ t.out = s.out := by
  refine Prod.ext_iff.mp (execAll_keeps (f := fun s => (s.chk, s.out)) (fun i hi s t hst => ?_) h)
  have hload : i = .sbclr ∨ ∃ c, i = .sbput c := by
    obtain rfl | hput := List.mem_cons.mp hi
    · exact .inl rfl
    · obtain ⟨c, -, rfl⟩ := List.mem_map.mp hput
      exact .inr ⟨c, rfl⟩
  obtain rfl | ⟨c, rfl⟩ := hload
  · have hout := exec_out_of_silent (by simp [EmitsChars]) (by simp [EmitsValues]) hst
    obtain rfl := exec_sbclr_next hst
    exact Prod.ext rfl hout
  · have hout := exec_out_of_silent (by simp [EmitsChars]) (by simp [EmitsValues]) hst
    obtain ⟨-, rfl⟩ | ⟨-, rfl⟩ := exec_sbput_next hst <;> exact Prod.ext rfl hout

/-- The characters of an answer. -/
theorem dataOf_answer (tag : Tag) (data : List Byte) (r : Response) :
    dataOf tag ((beats tag data).map Output.beat ++ [.response r]) = data := by
  rw [dataOf_append, dataOf_beats, dataOf_response, List.append_nil]

/-- What ENCSYMs send: for each symbol its character and a response. -/
def encsymOutputs (data : List Sym) : List Output :=
  data.flatMap fun x => [.beat ⟨.char, charEnc x⟩, .response ⟨.ok, byteValue (charEnc x)⟩]

theorem allOk_encsymOutputs (data : List Sym) : allOk (encsymOutputs data) := by
  induction data with
  | nil => simp [allOk, encsymOutputs]
  | cons x data ih => exact allOk_append (allOk_answer [⟨.char, charEnc x⟩] (byteValue (charEnc x))) ih

theorem dataOf_encsymOutputs (data : List Sym) : dataOf .char (encsymOutputs data) = data.map charEnc := by
  induction data with
  | nil => rfl
  | cons x data ih => exact congrArg (charEnc x :: ·) ih

/-- An ENCSYM for each symbol feeds them to CHK and sends their characters. -/
theorem execAll_encsyms (data : List Sym) (s : State) :
    execAll (data.map .encsym) s = .next { s with
      chk := polyfeed s.chk (data.map zext30)
      sent := s.sent ++ encsymOutputs data } := by
  induction data generalizing s with
  | nil => simp [execAll, polyfeed, encsymOutputs]
  | cons x data ih =>
    rw [List.map_cons, execAll_cons (i := .encsym x) (execEncsym_eq x s), ih]
    simp [State.answers, polyfeed, encsymOutputs]

/-- What ENCSYMs and ENCFIN send from `CHK = c`. -/
def dataOutputs (c : Word30) (data : List Sym) : List Output :=
  let m := polyfeed (polyfeed c (data.map zext30)) (List.replicate 6 0) ^^^ 1
  encsymOutputs data ++ ((beats .char ((sixSyms m).map charEnc)).map Output.beat ++ [.response ⟨.ok, word30Value m⟩])

/-- ENCSYMs and ENCFIN complete from every state. -/
theorem execAll_encsyms_encfin (data : List Sym) (s : State) :
    ∃ t : State, execAll (data.map .encsym ++ [.encfin]) s = .next t ∧ t.sent = s.sent ++ dataOutputs s.chk data := by
  refine ⟨_, (execAll_append (execAll_encsyms data s)).trans (execAll_cons (i := .encfin) (execEncfin_eq _)), ?_⟩
  simp [dataOutputs]

theorem allOk_dataOutputs (c : Word30) (data : List Sym) : allOk (dataOutputs c data) :=
  allOk_append (allOk_encsymOutputs data) (allOk_answer _ _)

/-- From the hrp's expansion the six zero steps make R171's checksum. -/
theorem dataOutputs_expand (hrp : List Byte) (data : List Sym) :
    dataOutputs (polymod (expand hrp)) data = encsymOutputs data ++
      ((beats .char ((ckSyms hrp data).map charEnc)).map Output.beat ++
        [.response ⟨.ok, word30Value (checksum hrp data)⟩]) := by
  simp only [dataOutputs, ckSyms, checksum, polymod_append]

/-- After ENCHRP the ENCSYMs and ENCFIN send the rest of ENCODE's string. -/
theorem dataOf_dataOutputs_expand (hrp : List Byte) (data : List Sym) :
    dataOf .char (dataOutputs (polymod (expand hrp)) data) = (data ++ ckSyms hrp data).map charEnc := by
  rw [dataOutputs_expand, dataOf_append, dataOf_encsymOutputs, dataOf_answer, List.map_append]

/-- After ENCHRP the last response is ENCFIN's, with the checksum. -/
theorem lastResponse_dataOutputs_expand (o : List Output) (hrp : List Byte) (data : List Sym) :
    lastResponse (o ++ dataOutputs (polymod (expand hrp)) data) = some ⟨.ok, word30Value (checksum hrp data)⟩ := by
  simp only [dataOutputs_expand, ← List.append_assoc, lastResponse_concat]

/-- With the hrp loaded and ENCHRP answered, the ENCSYMs and ENCFIN are left. -/
theorem execAll_encodeSeq {hrp : List Byte} {s u v : State} (hload : execAll (sbstr hrp) s = .next u)
    (hstart : exec .enchrp u = .next v) (data : List Sym) :
    execAll (encodeSeq hrp data) s = execAll (data.map .encsym ++ [.encfin]) v := by
  rw [encodeSeq, List.append_assoc, execAll_append hload, List.cons_append, execAll_cons hstart]

/-- Loading a string sends no character. -/
theorem dataOf_sbstr {str : List Byte} {s t : State} {o : List Output} (h : execAll (sbstr str) s = .next t)
    (hsent : t.sent = s.sent ++ o) : dataOf .char o = [] := by
  have hout := (execAll_sbstr_keeps h).2
  rw [State.out, hsent, List.filterMap_append] at hout
  rw [dataOf, List.append_right_eq_self.mp hout, List.filterMap_nil]

/-- What ENCHRP sends for an hrp that fits. -/
def hrpOutputs (hrp : List Byte) (len : BitVec 7) : List Output :=
  (beats .char (hrp ++ [sep])).map Output.beat ++ [.response ⟨.ok, lenValue len⟩]

/-- With an hrp that fits the characters sent are ENCODE's: the hrp and the separator from ENCHRP, the rest from ENCSYM
and ENCFIN. -/
theorem encodeTransaction_fits {hrp : List Byte} (data : List Sym) (s : State) (h : hrp.length ≤ 90) :
    ∃ (u : State) (o : List Output), execAll (encodeSeq hrp data) s = .next u ∧
      u.sent = s.sent ++ o ∧ allOk o ∧ readEncode o = some (.ok (encodeF hrp data)) ∧
      lastResponse o = some ⟨.ok, BitVec.ofNat 32 (checksum hrp data).toNat⟩ := by
  obtain ⟨u, o, hload, hlen, hstr, hsent, hok⟩ := execAll_sbstr s h
  have hstart := execEnchrp_eq (hlen.trans_le h)
  rw [hstr] at hstart
  obtain ⟨w, hrest, hwsent⟩ := execAll_encsyms_encfin data
    ({ u with chk := polymod (expand hrp) }.answers (beats .char (hrp ++ [sep])) .ok (lenValue u.len))
  have hall : allOk (o ++ hrpOutputs hrp u.len ++ dataOutputs (polymod (expand hrp)) data) :=
    allOk_append (allOk_append hok (allOk_answer _ _)) (allOk_dataOutputs _ data)
  have hlast := lastResponse_dataOutputs_expand (o ++ hrpOutputs hrp u.len) hrp data
  refine ⟨w, _, (execAll_encodeSeq hload hstart data).trans hrest, ?_, hall, ?_, word30Value_eq _ ▸ hlast⟩
  · simp [hwsent, hsent, hrpOutputs]
  · rw [readEncode_of_allOk hall hlast, dataOf_append, dataOf_append, dataOf_sbstr hload hsent, hrpOutputs,
      dataOf_answer, dataOf_dataOutputs_expand, encodeF, List.nil_append]

/-- Loading answers OK or E_OVERFLOW only. -/
theorem status_putAnswer {n : Nat} {r : Response} (h : (putAnswer n).response? = some r) :
    r.status = .ok ∨ r.status = .eOverflow := by
  unfold putAnswer at h
  split at h
  · cases h; exact .inl rfl
  · cases h; exact .inr rfl

/-- When only E_OVERFLOW can have failed before, an E_OVERFLOW makes it the first failure. -/
theorem firstFailure_concat_eOverflow {o : List Output}
    (h : ∀ r ∈ o.filterMap Output.response?, r.status = .ok ∨ r.status = .eOverflow) (v : Value) :
    firstFailure (o ++ [.response ⟨.eOverflow, v⟩]) = some .eOverflow := by
  cases hfail : firstFailure o with
  | none => rw [firstFailure_append, hfail]; rfl
  | some status =>
    obtain ⟨r, hr, hstatus⟩ := List.exists_of_findSome?_eq_some hfail
    obtain hok | hover := h r hr
    · simp [hok] at hstatus
    · obtain rfl : Status.eOverflow = status := by simpa [hover] using hstatus
      exact firstFailure_append_of_some hfail _

/-- With a longer hrp ENCHRP refuses, and the transaction has failed whatever the host does then. -/
theorem encodeTransaction_overflows {hrp : List Byte} (data : List Sym) (s : State) (h : 90 < hrp.length) :
    ∃ (u v w : State) (o o' : List Output), execAll (sbstr hrp) s = .next u ∧ u.chk = s.chk ∧
      exec .enchrp u = .next v ∧ v = u.answers [] .eOverflow 0 ∧
      v.sent = s.sent ++ o ∧ readEncode o = some (.error .eOverflow) ∧
      execAll (encodeSeq hrp data) s = .next w ∧ w.sent = s.sent ++ o' ∧ readEncode o' = some (.error .eOverflow) := by
  obtain ⟨u, hload, ⟨-, hlen, -, -, -⟩, hsent⟩ := execAll_sbstr_loaded hrp s
  have hstart : exec .enchrp u = .next (u.answers [] .eOverflow 0) := execEnchrp_overflow (by omega)
  obtain ⟨w, hrest, hwsent⟩ := execAll_encsyms_encfin data (u.answers [] .eOverflow 0)
  have hstatus : ∀ r ∈ (Output.response ⟨.ok, 0⟩ :: (List.range hrp.length).map putAnswer).filterMap Output.response?,
      r.status = .ok ∨ r.status = .eOverflow := by
    intro r hr
    obtain ⟨out, hmem, hresp⟩ := List.mem_filterMap.mp hr
    obtain rfl | hput := List.mem_cons.mp hmem
    · cases hresp; exact .inl rfl
    · obtain ⟨n, -, rfl⟩ := List.mem_map.mp hput
      exact status_putAnswer hresp
  have hfail := firstFailure_concat_eOverflow hstatus 0
  refine ⟨u, _, w, _, _, hload, (execAll_sbstr_keeps hload).1, hstart, rfl, ?_, readEncode_of_failure hfail,
    (execAll_encodeSeq hload hstart data).trans hrest, ?_,
    readEncode_of_failure (firstFailure_append_of_some hfail (dataOutputs u.chk data))⟩
  · simp [hsent]
  · simp [hwsent, hsent]

/-- Settles O44: an hrp of at most 90 characters is loaded whole and the transaction sends ENCODE's string; a longer one
overflows the buffer, and ENCHRP refuses. -/
theorem encodeTransactionGivesENCODE : Obligations.EncodeTransactionGivesENCODE :=
  fun _ data s => ⟨encodeTransaction_fits data s, encodeTransaction_overflows data s⟩

/-! ## Which strings decode back (R176, R186) -/

/-- The last separator is the one before a part that has none. -/
theorem lastSep_append_of_not_mem (hrp tail : List Byte) (h : sep ∉ tail) :
    lastSep (hrp ++ [sep] ++ tail) = some hrp.length := by
  induction tail using List.reverseRecOn with
  | nil => rw [List.append_nil, lastSep_append, if_pos rfl]
  | append_singleton tail c ih =>
    simp only [List.mem_append, List.mem_singleton, not_or] at h
    rw [← List.append_assoc, lastSep_append, if_neg (Ne.symm h.2), ih h.1]

theorem sep_not_mem_map_charEnc (xs : List Sym) : sep ∉ xs.map charEnc := by
  intro h
  obtain ⟨x, -, hx⟩ := List.mem_map.mp h
  exact (charEnc_printable_not_upper_not_sep x).2.2 hx

/-- A string is cut at a separator into what stands before it and after it. -/
theorem eq_append_of_lastSep {t : List Byte} {pos : Nat} (h : lastSep t = some pos) :
    t = t.take pos ++ [sep] ++ t.drop (pos + 1) := by
  obtain ⟨hpos, hget⟩ := List.getElem?_eq_some_iff.mp ((lastSep_eq_some t pos).mp h).1
  rw [List.append_assoc, ← hget, List.singleton_append, ← List.drop_eq_getElem_cons hpos, List.take_append_drop]

/-- Characters that are all in the alphabet are those of the symbols they are looked up to. -/
theorem map_charEnc_filterMap_charDec {t : List Byte} (h : t.any (fun c => (charDec c).isNone) = false) :
    (t.filterMap charDec).map charEnc = t := by
  induction t with
  | nil => rfl
  | cons c t ih =>
    rw [List.any_cons, Bool.or_eq_false_iff] at h
    obtain ⟨x, hx⟩ : ∃ x, charDec c = some x := by
      cases hc : charDec c with
      | none => simp [hc] at h
      | some x => exact ⟨x, rfl⟩
    rw [List.filterMap_cons_some hx, List.map_cons, charEnc_of_charDec hx, ih h.2]

theorem filterMap_charDec_map_charEnc (xs : List Sym) : (xs.map charEnc).filterMap charDec = xs := by
  simp [List.filterMap_map]

theorem any_charDec_isNone_map_charEnc (xs : List Sym) :
    (xs.map charEnc).any (fun c => (charDec c).isNone) = false := by
  simp

/-- What `decodeF str = .ok (hrp, data)` says of the string: it is printable, not of mixed case and not too long, and
lower-cased it is the hrp, which is not empty, the separator, and the characters of the data and of six more symbols
that verify. -/
structure Decodes (str hrp : List Byte) (data : List Sym) : Prop where
  printable : str.any (fun c => !printable c) = false
  oneCase : (str.any isUpper && str.any isLower) = false
  short : str.length ≤ 90
  hrp_ne_nil : hrp ≠ []
  split : ∃ ck : List Sym, ck.length = 6 ∧ verifyF hrp (data ++ ck) = true ∧
    str.map lower = hrp ++ [sep] ++ (data ++ ck).map charEnc

/-- A string that decodes has passed every check of R186. -/
theorem decodes_of_decodeF {str hrp : List Byte} {data : List Sym} (h : decodeF str = .ok (hrp, data)) :
    Decodes str hrp data := by
  unfold decodeF at h
  split at h
  · cases h
  rename_i hprint
  split at h
  · cases h
  rename_i hcase
  split at h
  · cases h
  rename_i hshort
  simp only at h
  split at h
  · cases h
  rename_i pos hpos
  split at h
  · cases h
  rename_i hfirst
  split at h
  · cases h
  rename_i hroom
  split at h
  · cases h
  rename_i halpha
  split at h
  · rename_i hverify
    rw [Bool.not_eq_true] at hprint hcase halpha
    obtain ⟨dwc, hdwc⟩ : ∃ dwc, ((str.map lower).drop (pos + 1)).filterMap charDec = dwc := ⟨_, rfl⟩
    have hchars := hdwc ▸ map_charEnc_filterMap_charDec halpha
    have hlen : dwc.length = str.length - (pos + 1) := by simpa using congrArg List.length hchars
    have hin : pos < str.length := by simpa using lastSep_lt hpos
    rw [hdwc] at h hverify
    injection h with h
    injection h with hhrp hdata
    have hdata' : data ++ dwc.drop (dwc.length - ckLen) = dwc := hdata ▸ List.take_append_drop ..
    refine ⟨hprint, hcase, Nat.not_lt.mp hshort, ?_, dwc.drop (dwc.length - ckLen), ?_, ?_, ?_⟩
    · rw [← hhrp, ← List.length_pos_iff, List.length_take, List.length_map]
      omega
    · rw [List.length_drop, hlen, ckLen]
      rw [ckLen] at hroom
      omega
    · rwa [hdata', ← hhrp]
    · rw [hdata', hchars, ← hhrp]
      exact eq_append_of_lastSep hpos
  · cases h

/-- Such a string passes every check: the separator found is the one after the hrp, as the alphabet has none. -/
theorem decodeF_of_decodes {str hrp : List Byte} {data : List Sym} (h : Decodes str hrp data) :
    decodeF str = .ok (hrp, data) := by
  obtain ⟨hprint, hcase, hshort, hne, ck, hck, hverify, hsplit⟩ := h
  have hpos : lastSep (str.map lower) = some hrp.length := by
    rw [hsplit, lastSep_append_of_not_mem _ _ (sep_not_mem_map_charEnc _)]
  have hlen : str.length = hrp.length + 7 + data.length := by
    have := congrArg List.length hsplit
    simp [hck] at this
    omega
  have hfirst : ¬ hrp.length < 1 := Nat.not_lt.mpr (List.length_pos_iff.mpr hne)
  have htake : (str.map lower).take hrp.length = hrp := by rw [hsplit, List.append_assoc, List.take_left]
  have hdrop : (str.map lower).drop (hrp.length + 1) = (data ++ ck).map charEnc := by
    rw [hsplit]
    exact List.drop_left' (by simp)
  have hdata : (data ++ ck).take ((data ++ ck).length - ckLen) = data :=
    List.take_left' (by simp [hck, ckLen])
  rw [decodeF, if_neg (by simp [hprint]), if_neg (by simp [hcase]), if_neg (by simp [maxLen, hshort])]
  simp only [hpos, htake, hdrop, filterMap_charDec_map_charEnc, any_charDec_isNone_map_charEnc, hverify, hdata]
  rw [if_neg hfirst, if_neg (by simp [ckLen]; omega)]
  rfl

theorem decodeF_eq_ok_iff {str hrp : List Byte} {data : List Sym} :
    decodeF str = .ok (hrp, data) ↔ Decodes str hrp data := ⟨decodes_of_decodeF, decodeF_of_decodes⟩

/-! ### ENCODE's strings -/

theorem isUpper_lower (c : Byte) : isUpper (lower c) = false := by revert c; decide

theorem lower_of_not_upper {c : Byte} (h : isUpper c = false) : lower c = c := by simp [lower, h]

@[simp] theorem encodeF_length (hrp : List Byte) (data : List Sym) :
    (encodeF hrp data).length = hrp.length + 7 + data.length := by
  simp [encodeF, ckSyms]
  omega

/-- What holds of the hrp's characters, the separator and the alphabet holds of ENCODE's string. -/
theorem forall_mem_encodeF {p : Byte → Prop} {hrp : List Byte} (hhrp : ∀ c ∈ hrp, p c) (hsep : p sep)
    (halpha : ∀ x, p (charEnc x)) (data : List Sym) : ∀ c ∈ encodeF hrp data, p c := by
  intro c hc
  simp only [encodeF, List.mem_append, List.mem_singleton, List.mem_map] at hc
  obtain (hc | rfl) | ⟨x, -, rfl⟩ := hc
  · exact hhrp c hc
  · exact hsep
  · exact halpha x

/-- An hrp that comes back comes back lower-cased, so it has no uppercase letter. -/
theorem not_upper_of_decodes {hrp : List Byte} {data : List Sym} (h : Decodes (encodeF hrp data) hrp data) :
    ∀ c ∈ hrp, isUpper c = false := by
  obtain ⟨ck, -, -, hsplit⟩ := h.split
  have hlower : hrp.map lower = hrp := by
    rw [encodeF, List.append_assoc, List.map_append, List.append_assoc] at hsplit
    exact List.append_inj_left hsplit (List.length_map ..)
  intro c hc
  rw [← hlower] at hc
  obtain ⟨d, -, rfl⟩ := List.mem_map.mp hc
  exact isUpper_lower d

/-- An hrp of the allowed characters comes back: the string is all printable and without uppercase letters, its last
separator is the encoder's, and its checksum verifies. -/
theorem decodes_encodeF {hrp : List Byte} {data : List Sym} (hne : hrp ≠ [])
    (hprint : ∀ c ∈ hrp, printable c = true) (hupper : ∀ c ∈ hrp, isUpper c = false)
    (hlen : hrp.length + 7 + data.length ≤ 90) : Decodes (encodeF hrp data) hrp data := by
  have hprint' := forall_mem_encodeF (p := (printable · = true)) hprint rfl
    (fun x => (charEnc_printable_not_upper_not_sep x).1) data
  have hupper' := forall_mem_encodeF (p := (isUpper · = false)) hupper rfl
    (fun x => (charEnc_printable_not_upper_not_sep x).2.1) data
  refine ⟨?_, ?_, (encodeF_length ..).trans_le hlen, hne, ckSyms hrp data, rfl, encodedSymbolsVerify hrp data, ?_⟩
  · simpa using hprint'
  · rw [List.any_eq_false.mpr fun c hc => by simp [hupper' c hc], Bool.false_and]
  · exact (List.map_congr_left fun c hc => lower_of_not_upper (hupper' c hc)).trans (List.map_id' _)

theorem printable_iff (c : Byte) : printable c = true ↔ 33 ≤ c.toNat ∧ c.toNat ≤ 126 := by
  rw [printable, Bool.and_eq_true, decide_eq_true_eq, decide_eq_true_eq]

theorem isUpper_eq_false_iff (c : Byte) : isUpper c = false ↔ ¬ (0x41 ≤ c.toNat ∧ c.toNat ≤ 0x5A) := by
  rw [isUpper_eq, decide_eq_false_iff_not]

/-- Settles O47: by `decodeF_eq_ok_iff`, which has printability and the length among its checks; the hrp comes back
lower-cased, and with the four conditions the whole string passes. -/
theorem encodedStringsDecodeBack : Obligations.EncodedStringsDecodeBack := by
  intro hrp data
  simp only [← printable_iff, ← isUpper_eq_false_iff, decodeF_eq_ok_iff]
  refine ⟨fun h => ⟨h.hrp_ne_nil, fun c hc => ?_, not_upper_of_decodes h, (encodeF_length ..).symm.trans_le h.short⟩,
    fun ⟨hne, hprint, hupper, hlen⟩ => decodes_encodeF hne hprint hupper hlen⟩
  have hmem : c ∈ encodeF hrp data := List.mem_append_left _ (List.mem_append_left _ hc)
  simpa using List.any_eq_false.mp h.printable c hmem

end Sys2Proof.Machine
end

section
/-! SUPPORT. The decoder (spec/45_decode.md R180 to R186): DECODE's outcome at each of its steps, DECODEF's at the same
steps, and the DECSTR transaction, which gives DECODEF's result. -/

namespace Sys2Proof.Machine

open Sys2Proof

/-! ## The steps of DECODE (R180 to R185) -/

/-- The symbols after a separator, the checksum's among them (step 6 of R180). -/
def splitSyms (str : List Byte) (pos : Nat) : List Sym := (splitTail str pos).filterMap charDec

/-- The value that step 7 of R180 tests against 1. -/
def splitChk (str : List Byte) (pos : Nat) : Word30 :=
  polymod (expand (splitHrp str pos) ++ (splitSyms str pos).map zext30)

/-- A buffer that passes steps 1 and 2 of R180 and has lost no character. -/
structure State.Readable (s : State) : Prop where
  np : s.np = false
  oneCase : s.mixedCase = false
  fits : s.len.toNat ≤ 90

theorem execDecode_unprintable {s : State} (hnp : s.np = true) : execDecode s = .next (s.answers [] .eCharset 0) :=
  (if_pos hnp).trans (raise_answers ..)

theorem execDecode_mixedCase {s : State} (hnp : s.np = false) (hcase : s.mixedCase = true) :
    execDecode s = .next (s.answers [] .eMixedCase 0) :=
  (if_neg (by simp [hnp])).trans ((if_pos hcase).trans (raise_answers ..))

theorem execDecode_overflow {s : State} (hnp : s.np = false) (hcase : s.mixedCase = false) (hlen : s.len.toNat = 91) :
    execDecode s = .next (s.answers [] .eLength 0) :=
  (if_neg (by simp [hnp])).trans ((if_neg (by simp [hcase])).trans ((if_pos hlen).trans (raise_answers ..)))

/-- A separator that is the first character is as good as none. -/
theorem execDecode_noSeparator {s : State} (h : s.Readable) (hsep : ∀ pos, lastSep s.string = some pos → pos < 1) :
    execDecode s = .next (s.answers [] .eSeparator 0) := by
  obtain ⟨hnp, hcase, hfits⟩ := h
  rw [execDecode, if_neg (by simp [hnp]), if_neg (by simp [hcase]), if_neg (by simp [Config.lenOver]; omega),
    withCells_of_le hfits, ← State.string_of_le hfits]
  cases hp : lastSep s.string with
  | none => exact raise_answers ..
  | some pos => exact (if_pos (hsep pos hp)).trans (raise_answers ..)

/-- From a last separator that is not the first character on, three tests are left. -/
theorem execDecode_separator {s : State} {pos : Nat} (h : s.Readable) (hsep : lastSep s.string = some pos)
    (hpos : 1 ≤ pos) :
    execDecode s =
      if s.string.length < pos + 7 then .next (s.answers [] .eLength 0)
      else if (splitTail s.string pos).any (fun c => (charDec c).isNone) then .next (s.answers [] .eCharset 0)
      else if splitChk s.string pos ≠ 1 then .next ({ s with chk := splitChk s.string pos }.answers [] .eChecksum 0)
      else .next ({ s with chk := splitChk s.string pos }.answers (beats .char (splitHrp s.string pos) ++
          beats .sym (((splitSyms s.string pos).take (s.string.length - pos - 7)).map symByte)) .ok
          (decodeValue pos (s.string.length - pos - 7))) := by
  obtain ⟨hnp, hcase, hfits⟩ := h
  rw [execDecode, if_neg (by simp [hnp]), if_neg (by simp [hcase]), if_neg (by simp [Config.lenOver]; omega),
    withCells_of_le hfits, ← State.string_of_le hfits]
  simp only [hsep, if_neg (Nat.not_lt.mpr hpos), raise_answers, respond_emit_answers]
  rfl

/-- `VALUE` of a successful DECODE as a number (R92, R185). -/
theorem decodeValue_eq {h d : Nat} (hh : h < 256) : decodeValue h d = BitVec.ofNat 32 (d * 256 + h) := by
  apply BitVec.eq_of_toNat_eq
  rw [decodeValue, natValue, natValue, BitVec.toNat_or, BitVec.toNat_shiftLeft, BitVec.toNat_ofNat, BitVec.toNat_ofNat,
    BitVec.toNat_ofNat, ← Nat.or_mod_two_pow, ← Nat.shiftLeft_add_eq_or_of_lt hh, Nat.shiftLeft_eq]
  omega

/-- In the range of LEN, what is not 91 fits the buffer. -/
theorem State.readable_of_len_ne {s : State} (hlen : s.len.toNat ≤ 91) (hnp : s.np = false)
    (hcase : (s.low && s.upp) = false) (hne : s.len ≠ 91) : s.Readable := by
  have h91 : s.len.toNat ≠ 91 := fun h => hne (BitVec.eq_of_toNat_eq h)
  exact ⟨hnp, hcase, by omega⟩

theorem State.Readable.string_length {s : State} (h : s.Readable) : s.string.length = s.len.toNat := by
  rw [State.string_of_le h.fits, State.cells_length]

/-- Characters with their symbols beside them are the symbols' characters. -/
theorem eq_map_charEnc_of_map_charDec {t : List Byte} {xs : List Sym} (h : t.map charDec = xs.map some) :
    t = xs.map charEnc := by
  induction t generalizing xs with
  | nil => rw [List.map_eq_nil_iff.mp h.symm]; rfl
  | cons c t ih =>
    cases xs with
    | nil => simp at h
    | cons x xs =>
      obtain ⟨hc, ht⟩ := List.cons.inj h
      rw [List.map_cons, charEnc_of_charDec hc, ← ih ht]

/-- Settles O45: by DECODE's outcome at each step, the symbols after the separator being known by their characters. -/
theorem decodeMakesTheEightSteps : Obligations.DecodeMakesTheEightSteps := by
  refine ⟨rfl, fun s hlen => ?_⟩
  intro str
  have hstr : s.Readable → str = s.string := fun h => (State.string_of_le h.fits).symm
  clear_value str
  refine ⟨execDecode_unprintable, fun hnp hcase => execDecode_mixedCase hnp (by simp [State.mixedCase, hcase]),
    fun hnp hcase h91 => execDecode_overflow hnp hcase (congrArg BitVec.toNat h91), fun hnp hcase h91 hnone => ?_,
    fun hnp hcase h91 pos hpos hsep hlast => ?_⟩
  · have hread := State.readable_of_len_ne hlen hnp hcase h91
    obtain rfl := hstr hread
    exact execDecode_noSeparator hread fun pos hp =>
      Nat.not_le.mp fun hpos => hnone pos hpos ((lastSep_eq_some ..).mp hp).1
  · have hread := State.readable_of_len_ne hlen hnp hcase h91
    obtain rfl := hstr hread
    have hexec := execDecode_separator hread ((lastSep_eq_some ..).mpr ⟨hsep, hlast⟩) hpos
    rw [hread.string_length] at hexec
    refine ⟨fun hshort => hexec.trans (if_pos hshort), fun hroom hbad => ?_, fun hroom dwc hdwc => ?_⟩
    · exact hexec.trans ((if_neg (Nat.not_lt.mpr hroom)).trans (if_pos (by simpa [splitTail] using hbad)))
    · have htail : splitTail s.string pos = dwc.map charEnc := eq_map_charEnc_of_map_charDec hdwc
      have hsyms : splitSyms s.string pos = dwc := by rw [splitSyms, htail, filterMap_charDec_map_charEnc]
      rw [if_neg (Nat.not_lt.mpr hroom), htail, any_charDec_isNone_map_charEnc, if_neg Bool.false_ne_true, splitChk,
        hsyms] at hexec
      refine ⟨fun hc => hexec.trans (if_pos hc), fun hc => (hexec.trans (if_neg (not_not.mpr hc))).trans ?_⟩
      rw [show polymod (expand (splitHrp s.string pos) ++ dwc.map zext30) = 1 from hc, decodeValue_eq (by omega), beats,
        beats, List.map_map]
      rfl

/-! ## The steps of DECODEF (R186) -/

theorem lower_eq_sep_iff (c : Byte) : lower c = sep ↔ c = sep := by revert c; decide

/-- Lower-casing moves no separator (R182). -/
theorem lastSep_map_lower (str : List Byte) : lastSep (str.map lower) = lastSep str := by
  induction str using List.reverseRecOn with
  | nil => rfl
  | append_singleton str c ih => simp [lastSep_append, lower_eq_sep_iff, ih]

/-- The symbols after the separator are as many as the characters, when each is in the alphabet. -/
theorem splitSyms_length {str : List Byte} {pos : Nat}
    (h : (splitTail str pos).any (fun c => (charDec c).isNone) = false) :
    (splitSyms str pos).length = str.length - (pos + 1) := by
  simpa [splitSyms, splitTail] using congrArg List.length (map_charEnc_filterMap_charDec h)

section
variable {str : List Byte} (hprint : str.any (fun c => !printable c) = false)
  (hcase : (str.any isUpper && str.any isLower) = false) (hshort : str.length ≤ 90)
include hprint hcase hshort

theorem decodeF_noSeparator (hsep : ∀ pos, lastSep str = some pos → pos < 1) :
    decodeF str = .error .missingOrMisplacedSeparator := by
  rw [decodeF, if_neg (by simp [hprint]), if_neg (by simp [hcase]), if_neg (by simpa [maxLen] using hshort)]
  simp only [lastSep_map_lower]
  cases hp : lastSep str with
  | none => rfl
  | some pos => exact if_pos (hsep pos hp)

theorem decodeF_separator {pos : Nat} (hsep : lastSep str = some pos) (hpos : 1 ≤ pos) :
    decodeF str =
      if str.length < pos + 7 then .error .lengthExceeded
      else if (splitTail str pos).any (fun c => (charDec c).isNone) then .error .invalidCharacterSet
      else if splitChk str pos = 1 then
        .ok (splitHrp str pos, (splitSyms str pos).take ((splitSyms str pos).length - ckLen))
      else .error .checksumMismatch := by
  rw [decodeF, if_neg (by simp [hprint]), if_neg (by simp [hcase]), if_neg (by simpa [maxLen] using hshort)]
  simp only [lastSep_map_lower, hsep, if_neg (Nat.not_lt.mpr hpos), ← List.map_take, ← List.map_drop, verifyF,
    beq_iff_eq]
  rfl
end

/-! ## The DECSTR transaction (R186, R96) -/

/-- What DECODE sends for a result of DECODEF. -/
def decodeOutputs : Except HsError (List Byte × List Sym) → List Output
  | .error e => [.response ⟨statusOfError e, 0⟩]
  | .ok (hrp, data) => (beats .char hrp ++ beats .sym (data.map symByte)).map Output.beat ++
      [.response ⟨.ok, decodeValue hrp.length data.length⟩]

theorem hrpLength_decodeValue {h d : Nat} (hh : h < 128) : hrpLength (decodeValue h d) = h := by
  rw [hrpLength, decodeValue_eq (by omega), BitVec.extractLsb'_toNat, BitVec.toNat_ofNat, Nat.shiftRight_zero]
  omega

theorem dataLength_decodeValue {h d : Nat} (hh : h < 128) (hd : d < 128) : dataLength (decodeValue h d) = d := by
  rw [dataLength, decodeValue_eq (by omega), BitVec.extractLsb'_toNat, BitVec.toNat_ofNat, Nat.shiftRight_eq_div_pow]
  omega

theorem statusOfError_ne_ok (e : HsError) : statusOfError e ≠ .ok := by cases e <;> simp [statusOfError]

/-- A tag's beats have no data of another tag. -/
theorem dataOf_beats_of_ne {tag tag' : Tag} (h : tag ≠ tag') (data : List Byte) :
    dataOf tag' ((beats tag data).map Output.beat) = [] := by
  rw [dataOf, filterMap_beat_map]
  simp [beats, h]

/-- The result read is the one that was sent, when its lengths fit `VALUE`'s fields and no beat was sent before. -/
theorem readDecode_decodeOutputs {o : List Output} (ho : ∀ tag, dataOf tag o = [])
    {r : Except HsError (List Byte × List Sym)}
    (hr : ∀ hrp data, r = .ok (hrp, data) → hrp.length < 128 ∧ data.length < 128) :
    readDecode (o ++ decodeOutputs r) = some (r.map fun p => (p.1, p.2.map symByte)) := by
  cases r with
  | error e =>
    simp only [readDecode, decodeOutputs, lastResponse_concat, if_neg (statusOfError_ne_ok e),
      errorOfStatus_statusOfError]
    rfl
  | ok p =>
    obtain ⟨hrp, data⟩ := p
    obtain ⟨hh, hd⟩ := hr hrp data rfl
    have hchar : dataOf .char (o ++ decodeOutputs (.ok (hrp, data))) = hrp := by
      simp [decodeOutputs, dataOf_append, ho, dataOf_beats_of_ne]
    have hsym : dataOf .sym (o ++ decodeOutputs (.ok (hrp, data))) = data.map symByte := by
      simp [decodeOutputs, dataOf_append, ho, dataOf_beats_of_ne]
    have hlast : lastResponse (o ++ decodeOutputs (.ok (hrp, data))) =
        some ⟨.ok, decodeValue hrp.length data.length⟩ := by
      rw [decodeOutputs, ← List.append_assoc, lastResponse_concat]
    simp only [readDecode, hlast, hchar, hsym, hrpLength_decodeValue hh, dataLength_decodeValue hh hd]
    simp [Except.map]

/-- The lengths of a result are small, as the string has the separator and six more symbols beside them (R185). -/
theorem decodeF_ok_lengths {str hrp : List Byte} {data : List Sym} (h : decodeF str = .ok (hrp, data)) :
    hrp.length + 7 + data.length ≤ 90 := by
  obtain ⟨-, -, hshort, -, ck, hck, -, hsplit⟩ := decodes_of_decodeF h
  have hlen := congrArg List.length hsplit
  simp [hck] at hlen
  omega

/-- Outputs that add nothing to OUT have no data. -/
theorem dataOf_of_out_eq {s t : State} {o : List Output} (hsent : t.sent = s.sent ++ o) (hout : t.out = s.out)
    (tag : Tag) : dataOf tag o = [] := by
  rw [State.out, hsent, List.filterMap_append] at hout
  rw [dataOf, List.append_right_eq_self.mp hout, List.filterMap_nil]

/-- DECODE completes, and sends the result `r`. -/
def State.DecodesTo (s : State) (r : Except HsError (List Byte × List Sym)) : Prop :=
  ∃ t : State, exec .decode s = .next t ∧ t.sent = s.sent ++ decodeOutputs r

theorem State.decodesTo_error {s u : State} {e : HsError}
    (h : execDecode s = .next (u.answers [] (statusOfError e) 0)) (hu : u.sent = s.sent) : s.DecodesTo (.error e) :=
  ⟨_, h, by simp [hu, decodeOutputs]⟩

theorem State.decodesTo_ok {s u : State} {hrp : List Byte} {data : List Sym}
    (h : execDecode s = .next (u.answers (beats .char hrp ++ beats .sym (data.map symByte)) .ok
      (decodeValue hrp.length data.length))) (hu : u.sent = s.sent) : s.DecodesTo (.ok (hrp, data)) :=
  ⟨_, h, by rw [State.answers_sent, hu, List.append_assoc]; rfl⟩

/-- On a string that fits, with flags that tell it printable and of one case, DECODE goes on as R186 does. -/
theorem State.Readable.decodesTo {s : State} (h : s.Readable)
    (hprint : s.string.any (fun c => !printable c) = false)
    (hcase : (s.string.any isUpper && s.string.any isLower) = false) : s.DecodesTo (decodeF s.string) := by
  have hshort := s.string_length_le
  by_cases hsep : ∀ pos, lastSep s.string = some pos → pos < 1
  · rw [decodeF_noSeparator hprint hcase hshort hsep]
    exact State.decodesTo_error (execDecode_noSeparator h hsep) rfl
  push Not at hsep
  obtain ⟨pos, hsep, hpos⟩ := hsep
  have hexec := execDecode_separator h hsep hpos
  have hin := lastSep_lt hsep
  rw [decodeF_separator hprint hcase hshort hsep hpos]
  split_ifs with hroom hbad hc
  · rw [if_pos hroom] at hexec
    exact State.decodesTo_error hexec rfl
  · rw [if_neg hroom, if_pos hbad] at hexec
    exact State.decodesTo_error hexec rfl
  · rw [if_neg hroom, if_neg hbad, if_neg (not_not.mpr hc)] at hexec
    rw [Bool.not_eq_true] at hbad
    have hlen : (splitSyms s.string pos).length - ckLen = s.string.length - pos - 7 := by
      rw [splitSyms_length hbad, ckLen]
      omega
    have hhrp : (splitHrp s.string pos).length = pos := by simp [splitHrp, hin.le]
    have hdata : ((splitSyms s.string pos).take (s.string.length - pos - 7)).length = s.string.length - pos - 7 := by
      rw [List.length_take]
      omega
    rw [hlen]
    exact State.decodesTo_ok (u := { s with chk := splitChk s.string pos }) (by rw [hhrp, hdata]; exact hexec) rfl
  · rw [if_neg hroom, if_neg hbad, if_pos hc] at hexec
    exact State.decodesTo_error hexec rfl

/-- DECODE on a loaded string has DECODEF's result: the flags have seen every character, and LEN is 91 exactly when the
string is too long. -/
theorem State.Loaded.decodesTo {s : State} {str : List Byte} (h : s.Loaded str) : s.DecodesTo (decodeF str) := by
  obtain ⟨hstr, hlen, hnp, hlow, hupp⟩ := h
  have hmixed : s.mixedCase = (str.any isUpper && str.any isLower) := by
    rw [State.mixedCase, hlow, hupp, Bool.and_comm]
  cases hprint : str.any (fun c => !printable c) with
  | true =>
    rw [decodeF, if_pos hprint]
    exact State.decodesTo_error (execDecode_unprintable (hnp.trans hprint)) rfl
  | false =>
    cases hcase : str.any isUpper && str.any isLower with
    | true =>
      rw [decodeF, if_neg (by simp [hprint]), if_pos hcase]
      exact State.decodesTo_error (execDecode_mixedCase (hnp.trans hprint) (hmixed.trans hcase)) rfl
    | false =>
      by_cases hlong : 90 < str.length
      · rw [decodeF, if_neg (by simp [hprint]), if_neg (by simp [hcase]), if_pos (show maxLen < _ from hlong)]
        exact State.decodesTo_error (execDecode_overflow (hnp.trans hprint) (hmixed.trans hcase) (by omega)) rfl
      · rw [List.take_of_length_le (Nat.not_lt.mp hlong)] at hstr
        subst hstr
        exact State.Readable.decodesTo ⟨hnp.trans hprint, hmixed.trans hcase, by omega⟩ hprint hcase

/-- Settles O46: SBSTR loads the string, `State.Loaded.decodesTo` says what DECODE sends then, and the reader takes that
result off the port. -/
theorem decodeTransactionGivesDECODE : Obligations.DecodeTransactionGivesDECODE := by
  intro str s
  obtain ⟨u, hload, hu, hsent⟩ := execAll_sbstr_loaded str s
  obtain ⟨t, hdecode, htsent⟩ := hu.decodesTo
  rw [hsent, List.append_assoc] at htsent
  refine ⟨t, _, (execAll_append hload).trans (execAll_cons hdecode), htsent,
    readDecode_decodeOutputs (dataOf_of_out_eq hsent (execAll_sbstr_keeps hload).2) fun hrp data hr => ?_⟩
  have := decodeF_ok_lengths hr
  omega

end Sys2Proof.Machine
end

section
/-! SUPPORT. Errors and the numbers on the ports (spec/60_exceptions.md R200 to R209): from a legal state every step goes
on, a failing command changes what R205's table says, and the codes of statuses, tags and beats. -/

namespace Sys2Proof.Machine

open Sys2Proof

/-! ## No legal state stops (R208) -/

/-- With nothing on the port the block waits (R9). -/
theorem step_waiting {s : State} (h : s.inputs = []) : step s = .next s := by
  simp [step, State.takeInput, h]

/-- In the ranges of R38 the block waits, resets, runs a command that completes, or answers an illegal word. -/
theorem step_completes {s : State} (hs : s.RegsLegal) : ∃ t, step s = .next t := by
  cases hin : s.inputs with
  | nil => exact ⟨s, step_waiting hin⟩
  | cons i rest =>
    cases i with
    | reset => exact ⟨_, step_reset hin⟩
    | command w =>
      cases hd : decode w with
      | error e => exact ⟨_, step_illegal hin hd⟩
      | ok i => rw [step_command hin hd]; exact exec_completes (hs.withPorts s.sent rest) i

/-- Settles O13: a legal state's registers are in the ranges of R38, where every step and every command completes. -/
theorem noLegalStateStops : Obligations.NoLegalStateStops :=
  ⟨fun _ hs => step_completes hs.regs, fun i _ hs => exec_completes hs i⟩

/-! ## What a failing command changes (R202, R205) -/

/-- The last thing given on the ports is a response with this status. -/
def State.EndsWith (t : State) (status : Status) : Prop :=
  ∃ (o : List Output) (value : Value), t.sent = o ++ [.response ⟨status, value⟩]

section
variable {s t : State} {status : Status} (hst : t.EndsWith status)
include hst

/-- The status a state ends with is the one it has answered. -/
theorem State.EndsWith.of_answers {u : State} {bs : List Beat} {st : Status} {v : Value} (ht : t = u.answers bs st v) :
    status = st ∧ t = u.answers bs status v := by
  obtain ⟨o, value, hsent⟩ := hst
  rw [ht, State.answers_sent] at hsent
  have hlast : Output.response ⟨st, v⟩ = .response ⟨status, value⟩ :=
    List.singleton_inj.mp (List.append_inj_right' hsent rfl)
  injection hlast with hresponse
  obtain rfl : st = status := congrArg Response.status hresponse
  exact ⟨rfl, ht⟩

variable (hne : status ≠ .ok)
include hne

theorem exec_sbput_failed {c : Byte} (h : exec (.sbput c) s = .next t) :
    status = .eOverflow ∧ t = { s.noteChar c with len := 91 }.answers [] status 91 := by
  obtain ⟨-, ht⟩ | ⟨-, ht⟩ := exec_sbput_next h
  · exact absurd (hst.of_answers ht).1 hne
  · exact hst.of_answers ht

theorem exec_pmhrp_failed (h : exec .pmhrp s = .next t) : status = .eOverflow ∧ t = s.answers [] status 0 := by
  obtain ⟨-, ht⟩ | ⟨-, ht⟩ := execPmhrp_next h
  · exact hst.of_answers ht
  · exact absurd (hst.of_answers ht).1 hne

theorem exec_enchrp_failed (h : exec .enchrp s = .next t) : status = .eOverflow ∧ t = s.answers [] status 0 := by
  obtain ⟨-, ht⟩ | ⟨-, ht⟩ := execEnchrp_next h
  · exact hst.of_answers ht
  · exact absurd (hst.of_answers ht).1 hne

theorem exec_cxdec_failed {c : Byte} (h : exec (.cxdec c) s = .next t) :
    status = .eCharset ∧ t = s.answers [] status 0 := by
  have ht := next_unique h (execCxdec_eq c s)
  split at ht
  · exact hst.of_answers ht
  · exact absurd (hst.of_answers ht).1 hne

/-- RPE is set after a failed push, whether this push or an earlier one was too wide. -/
theorem exec_rppush_failed {c : Byte} (h : exec (.rppush c) s = .next t) :
    status = .eWidth ∧ t = { s with rpe := true }.answers [] status 0 := by
  obtain ⟨hr, ht⟩ | ⟨-, -, ht⟩ | ⟨-, -, -, _, _, -, -, ht⟩ := execRppush_next h
  · rw [← hr]
    exact hst.of_answers ht
  · exact hst.of_answers ht
  · exact absurd (hst.of_answers ht).1 hne

theorem exec_rpend_failed (h : exec .rpend s = .next t) :
    (status = .eWidth ∨ status = .ePadding) ∧ t = s.clearRepacker.answers [] status 0 := by
  obtain ⟨-, ht⟩ | ⟨-, -, ⟨-, -, ht⟩ | ⟨-, -, ht⟩ | ⟨-, -, ht⟩ | ⟨-, -, -, ht⟩⟩ := execRpend_next h
  · exact (hst.of_answers ht).imp_left .inl
  · exact absurd (hst.of_answers ht).1 hne
  · exact absurd (hst.of_answers ht).1 hne
  · exact (hst.of_answers ht).imp_left .inr
  · exact absurd (hst.of_answers ht).1 hne

/-- A DECODE that fails at step 7 leaves the polymod it computed in CHK; one that fails before leaves no trace. -/
theorem exec_decode_failed (h : exec .decode s = .next t) :
    (status = .eChecksum ∧ ∃ pos, lastSep s.string = some pos ∧
      t = { s with chk := splitChk s.string pos }.answers [] status 0) ∨
    ((status = .eCharset ∨ status = .eMixedCase ∨ status = .eSeparator ∨ status = .eLength) ∧
      t = s.answers [] status 0) := by
  obtain ⟨-, ht⟩ | ⟨-, -, ht⟩ | ⟨-, -, ⟨-, ht⟩ | ⟨-, ⟨-, ht⟩ | ⟨pos, hpos, -, ⟨-, ht⟩ |
    ⟨-, ⟨-, ht⟩ | ⟨-, _, _, rfl, rfl, ⟨-, ht⟩ | ⟨-, ht⟩⟩⟩⟩⟩⟩ := execDecode_next h
  · exact .inr ((hst.of_answers ht).imp_left .inl)
  · exact .inr ((hst.of_answers ht).imp_left fun hcase => .inr (.inl hcase))
  · exact .inr ((hst.of_answers ht).imp_left fun hlong => .inr (.inr (.inr hlong)))
  · exact .inr ((hst.of_answers ht).imp_left fun hsep => .inr (.inr (.inl hsep)))
  · exact .inr ((hst.of_answers ht).imp_left fun hshort => .inr (.inr (.inr hshort)))
  · exact .inr ((hst.of_answers ht).imp_left .inl)
  · exact .inl ((hst.of_answers ht).imp_right fun ht' => ⟨pos, hpos, ht'⟩)
  · exact absurd (hst.of_answers ht).1 hne

end

/-- Settles O16: each command that can fail by its `exec_…_failed`; each of the others has one outcome, and it is OK. -/
theorem failedCommandsChangeOnlyWhatR205Says : Obligations.FailedCommandsChangeOnlyWhatR205Says := by
  refine ⟨fun i s t o status value h hsent hne => ?_, fun s w rest e hin hd => step_illegal hin hd⟩
  have hst : t.EndsWith status := ⟨s.sent ++ o, value, hsent⟩
  have ok {u : State} {bs : List Beat} {v : Value} (e : exec i s = .next (u.answers bs .ok v)) : status = .ok :=
    (hst.of_answers (next_unique h e)).1
  cases i with
  | sbput c =>
    simp only [← not_printable_eq, ← isLower_eq, ← isUpper_eq]
    exact exec_sbput_failed hst hne h
  | pmhrp => exact exec_pmhrp_failed hst hne h
  | enchrp => exact exec_enchrp_failed hst hne h
  | cxdec c => exact exec_cxdec_failed hst hne h
  | rppush c => exact exec_rppush_failed hst hne h
  | rpend => exact exec_rpend_failed hst hne h
  | decode => exact exec_decode_failed hst hne h
  | srst => exact hne (ok (execSrst_eq s))
  | sbclr => exact hne (ok (execSbclr_eq s))
  | rpcfg f w p => exact hne (ok (execRpcfg_eq f w p s))
  | pminit => exact hne (ok (execPminit_eq s))
  | pmstep x => exact hne (ok (execPmstep_eq x s))
  | pmrd => exact hne (ok (execPmrd_eq s))
  | pmvfy => exact hne (ok (execPmvfy_eq s))
  | cxenc x => exact hne (ok (execCxenc_eq x s))
  | encsym x => exact hne (ok (execEncsym_eq x s))
  | encfin => exact hne (ok (execEncfin_eq s))

/-! ## The numbers on the ports (R200, R34) -/

theorem statusOfCode_statusCode (st : Status) : statusOfCode (statusCode st) = some st := by cases st <;> rfl

/-- The list of statuses ends at code 9 (I5). -/
theorem statusOfCode_eq_none_iff (c : BitVec 4) : statusOfCode c = none ↔ 10 ≤ c.toNat := List.getElem?_eq_none_iff

theorem beatBits_tag (b : Beat) : (beatBits b).extractLsb' 8 2 = tagCode b.tag := BitVec.extractLsb'_append_eq_left

theorem beatBits_data (b : Beat) : (beatBits b).extractLsb' 0 8 = b.data := BitVec.extractLsb'_append_eq_right

theorem beatOfBits_beatBits (b : Beat) : beatOfBits (beatBits b) = some b := by
  obtain ⟨tag, data⟩ := b
  rw [beatOfBits, beatBits_tag, beatBits_data]
  cases tag <;> rfl

/-- Tag 3 is the only number of two bits with no tag (I6). -/
theorem beatOfBits_eq_none_iff (v : BitVec 10) : beatOfBits v = none ↔ v.extractLsb' 8 2 = 3 := by
  have hlt : (v.extractLsb' 8 2).toNat < 4 := (v.extractLsb' 8 2).isLt
  rw [← BitVec.toNat_inj, beatOfBits]
  obtain h | h | h | h : (v.extractLsb' 8 2).toNat = 0 ∨ (v.extractLsb' 8 2).toNat = 1 ∨
      (v.extractLsb' 8 2).toNat = 2 ∨ (v.extractLsb' 8 2).toNat = 3 := by omega
  all_goals simp [h]

/-- Settles O54: the codes by their tables, a beat's two fields by the halves of its bits. -/
theorem portCodes : Obligations.PortCodes :=
  ⟨statusOfCode_statusCode, statusOfCode_eq_none_iff, beatOfBits_beatBits, beatOfBits_eq_none_iff, rfl, rfl,
    fun b => ⟨beatBits_tag b, beatBits_data b⟩⟩

end Sys2Proof.Machine
end

section
/-! SUPPORT. The input port with no command on it (spec/70_reset_and_hazards.md R230): the block waits, or takes the
reset input. -/

namespace Sys2Proof.Machine

open Sys2Proof

/-- Settles O7: `step_waiting` for an empty port, `step_reset` for the reset input. -/
theorem waitingAndTheResetInput : Obligations.WaitingAndTheResetInput :=
  ⟨fun _ hnone => step_waiting hnone, fun _ _ hreset => step_reset hreset⟩

end Sys2Proof.Machine
end
